-- ==== Sys2Proof/Word.lean ====
section
/-! DEFINITION. Word.lean: the one word type of the CORE, a byte (rules R23, R81). -/
namespace Sys2Proof

/-- An 8-bit unsigned value: a register's contents, the address latch, one byte of a snapshot or of a
command stream (rules R23, R24, R60, R81). -/
abbrev Byte := BitVec 8

end Sys2Proof
end

