-- ==== Sys2Proof/Syntax.lean ====
section
/-! DEFINITION. Syntax.lean: the host operations of the CORE (rule R80), one constructor per row of
spec/opcode_table.json. -/
namespace Sys2Proof

/-- A number the caller passes to an operation. The operations take any integer and refuse what is out of
range, and refuse an argument that is no integer (rules R110, R130, R261, R301). -/
inductive Arg where
  | int (v : Int)
  | nonInteger
  deriving DecidableEq, Repr

/-- The number `n` as an argument. -/
abbrev Arg.nat (n : Nat) : Arg := .int (Int.ofNat n)

/-- The operations a chip accepts from its caller (rules R80, R82): the "instructions" of the CORE. -/
inductive Instr where
  /-- CONSTRUCT, rules R83 and R260. -/
  | construct (clock : Arg)
  /-- WRITE, rules R84 and R112. -/
  | write (address value : Arg)
  /-- WRITE_ADDRESS, rules R85 and R111. -/
  | writeAddress (addr : Arg)
  /-- WRITE_DATA, rules R86 and R113. -/
  | writeData (value : Arg)
  /-- GENERATE, rules R87 and R130. -/
  | generate (n : Arg)
  /-- SAVE_STATE, rules R88 and R230. -/
  | saveState
  /-- LOAD_STATE, rules R89 and R233: a byte sequence of any length. -/
  | loadState (payload : List Byte)
  /-- RESET, rules R90 and R266. -/
  | reset
  /-- READ_CLOCK, rules R91 and R262. -/
  | readClock
  /-- READ_SAMPLE_RATE, rules R92 and R263. -/
  | readSampleRate
  /-- READ_OUTPUTS, rules R93 and R264. -/
  | readOutputs
  deriving DecidableEq, Repr

end Sys2Proof
end

