-- ==== Sys2Proof/WellFormed.lean ====
section
/-! DEFINITION. WellFormed.lean: which operations a command stream can spell (rules R83 to R93). An operation
that is not well formed is still an operation a caller can issue, and has its meaning; it has no encoding. -/
namespace Sys2Proof

/-- An integer in `[0, bound)`. -/
def Arg.fits (bound : Nat) : Arg → Bool
  | .int v => decide (0 ≤ v) && decide (v < Int.ofNat bound)
  | .nonInteger => false

/-- Each numeric operand fits its field: u8 is 8 bits, u32 is 32 bits, the payload length is a u16
(rules R82, R83, R87, R89). -/
def Instr.wellFormed : Instr → Bool
  | .construct clock => clock.fits 4294967296
  | .write address value => address.fits 256 && value.fits 256
  | .writeAddress addr => addr.fits 256
  | .writeData value => value.fits 256
  | .generate n => n.fits 4294967296
  | .saveState => true
  | .loadState payload => decide (payload.length < 65536)
  | .reset => true
  | .readClock => true
  | .readSampleRate => true
  | .readOutputs => true

end Sys2Proof
end

