-- ==== Sys2Proof/Decode.lean ====
section
/-! DEFINITION. Decode.lean: byte order (rules R14, R62), the command-stream decoder (rules R81 to R98), and the
encoder written from the same table. -/
namespace Sys2Proof

/-! ### Byte order -/

/-- The little-endian unsigned value of a byte sequence (rules R14, R62). -/
def leNat : List Byte → Nat
  | [] => 0
  | b :: bs => b.toNat + 256 * leNat bs

/-- The `n` little-endian bytes of `v` (rule R14, `MemWrite`). -/
def leBytes : Nat → Nat → List Byte
  | 0, _ => []
  | n + 1, v => BitVec.ofNat 8 v :: leBytes n (v / 256)

/-- `MemRead(b, off, n)` of rule R14. -/
def memRead (b : List Byte) (off n : Nat) : Nat := leNat ((b.drop off).take n)

/-! ### Command formats -/

/-- The command formats of rule R82. -/
inductive Format where
  | f1 | f2 | f3 | f5 | fv
  deriving DecidableEq, Repr

/-- Rule R82: the format of each opcode; rule R95: the reserved opcodes have none. -/
def formatOf (opcode : Nat) : Option Format :=
  match opcode with
  | 0x01 => some .f5
  | 0x02 => some .f3
  | 0x03 => some .f2
  | 0x04 => some .f2
  | 0x05 => some .f5
  | 0x06 => some .f1
  | 0x07 => some .fv
  | 0x08 => some .f1
  | 0x09 => some .f1
  | 0x0A => some .f1
  | 0x0B => some .f1
  | _ => none

/-- Rule R94: the length of a command of format `f` whose bytes begin `cmd`; `none` when an FV command's
length bytes are not both there. -/
def commandLength (f : Format) (cmd : List Byte) : Option Nat :=
  match f with
  | .f1 => some 1
  | .f2 => some 2
  | .f3 => some 3
  | .f5 => some 5
  | .fv => if cmd.length < 3 then none else some (3 + memRead cmd 1 2)

/-- An unsigned operand field of a command: `n` bytes at offset `off` (rules R82 to R87). -/
def operand (cmd : List Byte) (off n : Nat) : Arg := Arg.nat (memRead cmd off n)

/-- Rules R83 to R93: the operation a complete command's bytes spell. -/
def commandOf (opcode : Nat) (cmd : List Byte) : Option Instr :=
  match opcode with
  | 0x01 => some (.construct (operand cmd 1 4))
  | 0x02 => some (.write (operand cmd 1 1) (operand cmd 2 1))
  | 0x03 => some (.writeAddress (operand cmd 1 1))
  | 0x04 => some (.writeData (operand cmd 1 1))
  | 0x05 => some (.generate (operand cmd 1 4))
  | 0x06 => some .saveState
  | 0x07 => some (.loadState (cmd.drop 3))
  | 0x08 => some .reset
  | 0x09 => some .readClock
  | 0x0A => some .readSampleRate
  | 0x0B => some .readOutputs
  | _ => none

/-! ### The decoder -/

/-- What the decoder finds at the head of a stream (rules R94 to R97). -/
inductive Decoded where
  /-- The stream is empty. -/
  | done
  /-- A complete command, its length in bytes, and the bytes after it. -/
  | command (i : Instr) (length : Nat) (rest : List Byte)
  /-- A reserved opcode byte (rule R95). -/
  | reserved
  /-- A defined opcode whose bytes end early (rule R96). -/
  | truncated
  deriving DecidableEq, Repr

/-- Rule R94: decode the one command at the head of a stream. -/
def decodeOne (stream : List Byte) : Decoded :=
  match stream with
  | [] => .done
  | op :: _ =>
    match formatOf op.toNat with
    | none => .reserved
    | some f =>
      match commandLength f stream with
      | none => .truncated
      | some n =>
        if stream.length < n then .truncated
        else
          match commandOf op.toNat (stream.take n) with
          | none => .reserved
          | some i => .command i n (stream.drop n)

/-- The verdict on the first bad command of a stream, with its offset (rules R95, R96). -/
inductive Verdict where
  | reserved (offset : Nat)
  | truncated (offset : Nat)
  deriving DecidableEq, Repr

/-- Rule R97's decoder from offset `o`, reading at most `fuel` commands. -/
def decodeFrom : Nat → Nat → List Byte → List (Nat × Instr) × Option Verdict
  | 0, _, _ => ([], none)
  | fuel + 1, o, stream =>
    match decodeOne stream with
    | .done => ([], none)
    | .reserved => ([], some (.reserved o))
    | .truncated => ([], some (.truncated o))
    | .command i n rest =>
      let later := decodeFrom fuel (o + n) rest
      ((o, i) :: later.1, later.2)

/-- Rule R97: all the commands of a stream with their offsets, up to the first bad one, and its verdict.
Every command takes at least one byte, so the stream's length is fuel enough. -/
def decodeStream (stream : List Byte) : List (Nat × Instr) × Option Verdict :=
  decodeFrom (stream.length + 1) 0 stream

/-! ### The encoder -/

/-- The number an argument stands for in an operand field (an argument that has no encoding is not
well formed; it is spelled as 0 or as its absolute low bits here and never decodes back to itself). -/
def Arg.field : Arg → Nat
  | .int v => v.toNat
  | .nonInteger => 0

/-- Rules R83 to R93: the bytes of a well-formed operation. -/
def encode : Instr → List Byte
  | .construct clock => 0x01#8 :: leBytes 4 clock.field
  | .write address value => 0x02#8 :: (leBytes 1 address.field ++ leBytes 1 value.field)
  | .writeAddress addr => 0x03#8 :: leBytes 1 addr.field
  | .writeData value => 0x04#8 :: leBytes 1 value.field
  | .generate n => 0x05#8 :: leBytes 4 n.field
  | .saveState => [0x06#8]
  | .loadState payload => 0x07#8 :: (leBytes 2 payload.length ++ payload)
  | .reset => [0x08#8]
  | .readClock => [0x09#8]
  | .readSampleRate => [0x0A#8]
  | .readOutputs => [0x0B#8]

/-- Rule R82's length column. -/
def Instr.byteLength : Instr → Nat
  | .construct _ => 5
  | .write _ _ => 3
  | .writeAddress _ => 2
  | .writeData _ => 2
  | .generate _ => 5
  | .saveState => 1
  | .loadState payload => 3 + payload.length
  | .reset => 1
  | .readClock => 1
  | .readSampleRate => 1
  | .readOutputs => 1

/-! ### Words as the opcode table numbers them -/

/-- The length in bytes of the command that begins with `bytes`, absent bytes read as 0 (rule R94). -/
def neededLength (bytes : List Byte) : Nat :=
  match formatOf (memRead bytes 0 1) with
  | none => bytes.length
  | some .f1 => 1
  | some .f2 => 2
  | some .f3 => 3
  | some .f5 => 5
  | some .fv => 3 + memRead bytes 1 2

/-- The bytes of a command whose table bits are `w`, byte `j` of it bits `8j+7..8j` of `w`, filled with zero
bytes up to the command's length. -/
def tableBytes (nbits w : Nat) : List Byte :=
  let bytes := leBytes ((nbits + 7) / 8) w
  bytes ++ List.replicate (neededLength bytes - bytes.length) 0#8

/-- The operation this decoder reads from a command whose table bits are `w`. -/
def decodeTableWord (nbits w : Nat) : Option Instr :=
  match decodeOne (tableBytes nbits w) with
  | .command i _ _ => some i
  | .done => none
  | .reserved => none
  | .truncated => none

end Sys2Proof
end

