-- ==== Sys2Proof/Config.lean ====
section
/-! DEFINITION. Config.lean: the chip families and their parameters (rules R2 and R7).
No value of the spec is left free (93_implementation_defined.md part 2: "No entry of this spec is any value"),
so this file holds no free value. -/
namespace Sys2Proof

/-- The closed set of chip families (rules R2, R20); the spec has exactly one, `REF`. -/
inductive Family where
  | ref
  deriving DecidableEq, Repr

/-- The record of parameters of a family, one field per row of rule R7's table. The meanings read
`familyId`, `splitWrite`, `outputs`, `div`, `snapVersion`, `snapLen` and `clockMin`; the widths and counts are also the
types of `Machine/State.lean`, and `Tests/Slice0.lean` shows that the two agree. -/
structure FamilyParams where
  familyId : Nat
  nspace : Nat
  naddr : Nat
  regBits : Nat
  splitWrite : Bool
  /-- `true`: a write to an unmapped in-range address is refused. `REF` stores it (rules R41, R115). -/
  unmappedRejected : Bool
  nch : Nat
  nop : Nat
  outputs : Nat
  sampleBits : Nat
  silence : Int
  div : Nat
  phaseBits : Nat
  waveIndexBits : Nat
  waveAmp : Nat
  envBits : Nat
  envDiv : Nat
  envTimerBits : Nat
  lfoBits : Nat
  nalg : Nat
  snapVersion : Nat
  snapLen : Nat
  clockMin : Nat
  deriving DecidableEq, Repr

/-- Rule R7: the values `REF` takes. -/
def Family.params : Family → FamilyParams
  | .ref =>
    { familyId := 1, nspace := 1, naddr := 256, regBits := 8, splitWrite := true,
      unmappedRejected := false, nch := 4, nop := 2, outputs := 2, sampleBits := 16, silence := 0,
      div := 64, phaseBits := 20, waveIndexBits := 8, waveAmp := 2047, envBits := 10, envDiv := 8,
      envTimerBits := 16, lfoBits := 16, nalg := 2, snapVersion := 1, snapLen := 333, clockMin := 1 }

end Sys2Proof
end

