-- ==== Sys2Proof/Machine/State.lean ====
section
/-! DEFINITION. Machine/State.lean: the state of one chip (rules R20 to R29), what crosses its interface
(rules R10, R46, R300), and the stream runner's state (rule R269); the reset state (rule R45). -/
namespace Sys2Proof.Machine

/-! ### The register file -/

/-- The register file, the CORE's one address space (rules R23, R60): a list of address and byte pairs in
canonical form, `Memory.wf` of Machine/Ops.lean. -/
abbrev Memory := List Host.Cell

/-- What an address that is not listed reads as: every register's reset value (rule R45). -/
def Memory.unlisted : Byte := 0x00#8

/-! ### Generator state -/

/-- The envelope segments of rule R44; codes 5 to 7 never occur. -/
inductive Segment where
  | off | attack | decay | sustain | release
  deriving DecidableEq, Repr

/-- The state of one operator (rule R25): its phase accumulator, envelope level, envelope segment, and
the key bit as the previous tick saw it. -/
structure Operator where
  phase : BitVec 20
  level : BitVec 10
  eg : Segment
  kprev : Bool
  deriving DecidableEq, Repr

/-- The eight operators, `op<k>` being operator `k` (rules R8, R25). -/
structure OperatorBank where
  op0 : Operator
  op1 : Operator
  op2 : Operator
  op3 : Operator
  op4 : Operator
  op5 : Operator
  op6 : Operator
  op7 : Operator
  deriving DecidableEq, Repr

/-- The mutable state of a chip (rules R20, R23 to R26): what a snapshot holds. There is no other (rule R27). -/
structure MutState where
  regs : Memory
  latch : Byte
  ops : OperatorBank
  envTimer : BitVec 16
  lfo : BitVec 16
  deriving DecidableEq, Repr

/-- A chip: its configuration, fixed when it is constructed, and its mutable state (rules R20, R21). -/
structure Chip where
  clock : Nat
  family : Family
  st : MutState
  deriving DecidableEq, Repr

/-! ### What crosses the interface -/

/-- A sample frame (rule R46): `out0` is the left output, `out1` the right. -/
structure Frame where
  out0 : Int
  out1 : Int
  deriving DecidableEq, Repr

/-- The three error kinds (rule R300). -/
inductive ErrorKind where
  | invalidArgument | invalidState | unsupported
  deriving DecidableEq, Repr

/-- What an error names as the failed check (rule R300). -/
inductive ErrorInfo where
  | address | value | count | clock | length | format | version | family | field
  | noInstance | reservedOpcode | truncated
  deriving DecidableEq, Repr

/-- An error value (rule R300). -/
structure Error where
  kind : ErrorKind
  info : ErrorInfo
  deriving DecidableEq, Repr

/-- A value an operation returns: frames, bytes or an integer (rules R10, R269). -/
inductive Value where
  | frames (fs : List Frame)
  | bytes (bs : List Byte)
  | integer (n : Nat)
  deriving DecidableEq, Repr

/-- The result of an operation, as its caller receives it (rule R10). -/
inductive Reply where
  | nothing
  | value (v : Value)
  | error (e : Error)
  deriving DecidableEq, Repr

/-- Whether the stream runner is still running, has returned `ok`, or has returned an error at an offset
(rule R269). -/
inductive RunStatus where
  | running
  | finished
  | failed (e : Error) (offset : Nat)
  deriving DecidableEq, Repr

/-! ### The machine -/

/-- The machine: the chip (none before the first CONSTRUCT of a stream, rule R269), the result of the last
operation issued to it (rule R10), and the stream runner: the bytes not yet performed, the offset of the
first of them, the results so far, and its status (rules R269, R270). -/
structure State where
  chip : Option Chip
  reply : Reply
  stream : List Byte
  offset : Nat
  results : List Value
  status : RunStatus
  deriving DecidableEq, Repr

/-- The machine stops with a fault. -/
inductive Fault where
  /-- Raised by the runner's step, and by nothing else, when the run has already returned (rules R269, R270):
  there is no further command to perform. A stuck state; safe. -/
  | runReturned
  deriving DecidableEq, Repr

/-- The machine has no meaning for an instruction. -/
inductive Refusal where
  /-- Raised by an arm of exec that has no meaning yet, naming its instruction (no arm does); safe. -/
  | notModelled (mnemonic : String)
  deriving DecidableEq, Repr

/-! ### Reset -/

/-- An operator after reset (rule R45). -/
def Operator.reset : Operator := { phase := 0#20, level := 0#10, eg := .off, kprev := false }

/-- The operators after reset (rule R45). -/
def OperatorBank.reset : OperatorBank :=
  { op0 := Operator.reset, op1 := Operator.reset, op2 := Operator.reset, op3 := Operator.reset,
    op4 := Operator.reset, op5 := Operator.reset, op6 := Operator.reset, op7 := Operator.reset }

/-- Every mutable field at its reset value (rule R45, `RESET_STATE` of rule R266). -/
def MutState.reset : MutState :=
  { regs := [], latch := 0x00#8, ops := OperatorBank.reset, envTimer := 0#16, lfo := 0#16 }

/-- The machine right after reset: a `REF` chip whose mutable state is the one of rule R45, with no command
stream given yet. DESIGN CHOICE (log entries 1 and 2): the clock is 64, since the spec gives it no reset value, and
a chip is there, since rule R45 gives a state after reset to a chip only; `runStart` of Machine/Stream.lean is
rule R269's start with no chip. Unsafe where a claim rests on the clock 64. -/
def State.reset : State :=
  { chip := some { clock := 64, family := .ref, st := MutState.reset }, reply := .nothing,
    stream := [], offset := 0, results := [], status := .running }

end Sys2Proof.Machine
end

