-- ==== Sys2Proof/Machine/Ops.lean ====
section
/-! DEFINITION. Machine/Ops.lean: the integer primitives (rules R12, R13), the register file (rule R23), the operator
bank (rule R25), and how an operation ends: with nothing, with a value, or with an error (rules R10, R300 to R305). -/
namespace Sys2Proof.Machine

/-! ### Integer primitives -/

/-- `v[hi:lo]` of rule R12. -/
def bits (v hi lo : Nat) : Nat := v / 2 ^ lo % 2 ^ (hi + 1 - lo)

/-- `asr(a, s)` of rule R13: the floor of `a / 2^s`. -/
def asr (a : Int) (s : Nat) : Int := a / 2 ^ s

/-- `clamp(v, lo, hi)` of rule R13. -/
def clamp (v lo hi : Int) : Int := max lo (min hi v)

/-- `clamp16(v)` of rule R13. -/
def clamp16 (v : Int) : Int := clamp v (-32768) 32767

/-- `ceil_div(a, b)` of rule R13, for `a ≥ 1` and `b ≥ 1`. -/
def ceilDiv (a b : Nat) : Nat := (a + b - 1) / b

/-! ### The register file -/

/-- The canonical form from address `lo` on: addresses strictly rising and below 256, and no byte that an
unlisted address reads as. -/
def Memory.wfFrom (lo : Nat) : Memory → Bool
  | [] => true
  | (a, v) :: m => decide (lo ≤ a) && decide (a < 256) && (v != Memory.unlisted) && Memory.wfFrom (a + 1) m

/-- The register file is in canonical form, within space 0 (rules R23, R60). -/
def Memory.wf (m : Memory) : Bool := Memory.wfFrom 0 m

/-- `reg[a]` of rule R14: the byte at address `a`. -/
def Memory.read (m : Memory) (a : Nat) : Byte :=
  match m with
  | [] => Memory.unlisted
  | (b, v) :: rest => if a < b then Memory.unlisted else if a = b then v else Memory.read rest a

/-- List `v` at `a` in front of `m`, unless `a` reads as `v` when unlisted. -/
def Memory.cons (a : Nat) (v : Byte) (m : Memory) : Memory := if v = Memory.unlisted then m else (a, v) :: m

/-- `reg[a] <- v` of rule R14, for a numeric address; "last write wins" (rule R23). -/
def Memory.writeAt (m : Memory) (a : Nat) (v : Byte) : Memory :=
  match m with
  | [] => Memory.cons a v []
  | (b, w) :: rest =>
    if a < b then Memory.cons a v ((b, w) :: rest)
    else if a = b then Memory.cons a v rest
    else (b, w) :: Memory.writeAt rest a v

/-- `reg[a] <- v` of rule R14; an address is 8 bits (rule R61). -/
def Memory.write (m : Memory) (a v : Byte) : Memory := Memory.writeAt m a.toNat v

/-- The register file whose bytes from address `base` on are `bs` (rule R233, first line). -/
def Memory.ofBytes (base : Nat) : List Byte → Memory
  | [] => []
  | b :: bs => Memory.cons base b (Memory.ofBytes (base + 1) bs)

/-- The 256 bytes of the register file in address order (rule R230). -/
def Memory.toBytes (m : Memory) : List Byte := (List.range 256).map m.read

/-! ### The operator bank -/

/-- Operator `k` (rule R25). -/
def OperatorBank.get (b : OperatorBank) (k : Fin 8) : Operator :=
  match k with
  | 0 => b.op0
  | 1 => b.op1
  | 2 => b.op2
  | 3 => b.op3
  | 4 => b.op4
  | 5 => b.op5
  | 6 => b.op6
  | 7 => b.op7

/-- The bank whose operator `k` is `f k`. -/
def OperatorBank.build (f : Fin 8 → Operator) : OperatorBank :=
  { op0 := f 0, op1 := f 1, op2 := f 2, op3 := f 3, op4 := f 4, op5 := f 5, op6 := f 6, op7 := f 7 }

/-- One stage `for k in 0..7`: operator `k` becomes `f k` of itself. Within a stage no operator reads another, so
the order changes nothing (rule R134). -/
def OperatorBank.update (b : OperatorBank) (f : Fin 8 → Operator → Operator) : OperatorBank :=
  OperatorBank.build fun k => f k (b.get k)

/-! ### Envelope segment codes -/

/-- The code of a segment (rule R44). -/
def Segment.code : Segment → Nat
  | .off => 0
  | .attack => 1
  | .decay => 2
  | .sustain => 3
  | .release => 4

/-- The segment of a code; codes above 4 are refused before this is asked (rules R44, R235). -/
def Segment.ofCode (n : Nat) : Segment :=
  match n with
  | 0 => .off
  | 1 => .attack
  | 2 => .decay
  | 3 => .sustain
  | _ => .release

/-! ### Errors, and how an operation ends -/

/-- The codes of rule R300. -/
def ErrorKind.code : ErrorKind → Nat
  | .invalidArgument => 1
  | .invalidState => 2
  | .unsupported => 3

/-- The outcome type of a step of this machine. -/
abbrev Result := Host.Outcome State Fault Refusal

/-- `s` with the result of an operation recorded. -/
def State.withReply (s : State) (r : Reply) : State := { s with reply := r }

/-- `s` with the chip `c`. -/
def State.withChip (s : State) (c : Chip) : State := { s with chip := some c }

/-- Raise an error: the CORE's only exception. It is returned to the caller, and no other state changes (rules
R14, R300, R304, R305, R309). -/
def raise (kind : ErrorKind) (info : ErrorInfo) (s : State) : Result :=
  .next (s.withReply (.error { kind := kind, info := info }))

/-- End an operation that returns the value `v`. -/
def answer (v : Value) (s : State) : Result := .next (s.withReply (.value v))

/-- End an operation that returns nothing and leaves the chip `c`. -/
def finishWith (c : Chip) (s : State) : Result := .next ((s.withChip c).withReply .nothing)

/-- An operation on a chip: with no chip it raises InvalidState, before any check of its own (rules R269,
R302, R306). -/
def onChip (s : State) (f : Chip → Result) : Result :=
  match s.chip with
  | none => raise .invalidState .noInstance s
  | some c => f c

end Sys2Proof.Machine
end

