-- ==== Sys2Proof/Machine/Operands.lean ====
section
/-! DEFINITION. Machine/Operands.lean: the argument checks (rules R110, R130, R261) and the register fields a tick
reads (rules R30 to R40 and R101). -/
namespace Sys2Proof.Machine

/-! ### Arguments -/

/-- `check_addr` and `check_value` of rule R110: the byte an argument is, if it is an integer in `0..255`. -/
def checkByte : Arg → Option Byte
  | .int v => if 0 ≤ v ∧ v ≤ 255 then some (BitVec.ofNat 8 v.toNat) else none
  | .nonInteger => none

/-- The count `generate` accepts: an integer `n ≥ 0`, with no upper bound (rule R130). -/
def checkCount : Arg → Option Nat
  | .int v => if 0 ≤ v then some v.toNat else none
  | .nonInteger => none

/-- The clock `construct` accepts: an integer from the family's least valid clock on, which is 1 for `REF`, with no
upper bound (rules R7, R261). -/
def checkClock (f : Family) : Arg → Option Nat
  | .int v => if Int.ofNat f.params.clockMin ≤ v then some v.toNat else none
  | .nonInteger => none

/-! ### Register fields -/

/-- `reg[a][hi:lo]` of rule R14. -/
def Memory.field (r : Memory) (a hi lo : Nat) : Nat := bits (r.read a).toNat hi lo

/-- The channel of operator `k` (rule R8). -/
def channelOf (k : Fin 8) : Nat := k.val / 2

/-- The LFO's rate (rule R31). -/
def fieldRate (r : Memory) : Nat := r.field 0x02 3 0
/-- The amplitude-modulation depth (rule R31). -/
def fieldDepth (r : Memory) : Nat := r.field 0x02 7 4
/-- The master volume (rule R32). -/
def fieldMvol (r : Memory) : Nat := (r.read 0x03).toNat
/-- The 11-bit frequency number of channel `ch` (rules R33, R34). -/
def fieldFnum (r : Memory) (ch : Nat) : Nat := r.field (0x14 + ch) 2 0 * 2 ^ 8 + r.field (0x10 + ch) 7 0
/-- The octave of channel `ch` (rule R34). -/
def fieldBlock (r : Memory) (ch : Nat) : Nat := r.field (0x14 + ch) 5 3
/-- The algorithm index of channel `ch`, as stored (rule R36). -/
def fieldAlg (r : Memory) (ch : Nat) : Nat := r.field (0x28 + ch) 2 0
/-- Channel `ch` goes to output 0 (rule R36). -/
def fieldLen (r : Memory) (ch : Nat) : Nat := r.field (0x28 + ch) 4 4
/-- Channel `ch` goes to output 1 (rule R36). -/
def fieldRen (r : Memory) (ch : Nat) : Nat := r.field (0x28 + ch) 5 5
/-- The attack rate of operator `k` (rule R37). -/
def fieldAr (r : Memory) (k : Fin 8) : Nat := r.field (0x40 + k.val) 7 4
/-- The decay rate of operator `k` (rule R37). -/
def fieldDr (r : Memory) (k : Fin 8) : Nat := r.field (0x40 + k.val) 3 0
/-- The sustain level code of operator `k` (rule R38). -/
def fieldSl (r : Memory) (k : Fin 8) : Nat := r.field (0x48 + k.val) 7 4
/-- The release rate of operator `k` (rule R38). -/
def fieldRr (r : Memory) (k : Fin 8) : Nat := r.field (0x48 + k.val) 3 0
/-- The frequency multiplier code of operator `k` (rule R39). -/
def fieldMul (r : Memory) (k : Fin 8) : Nat := r.field (0x50 + k.val) 3 0
/-- The waveform select of operator `k` (rule R39). -/
def fieldWs (r : Memory) (k : Fin 8) : Nat := r.field (0x50 + k.val) 5 4
/-- The amplitude-modulation enable of operator `k` (rule R39). -/
def fieldAm (r : Memory) (k : Fin 8) : Nat := r.field (0x50 + k.val) 6 6
/-- The total level of operator `k` (rule R40). -/
def fieldTl (r : Memory) (k : Fin 8) : Nat := r.field (0x58 + k.val) 6 0

end Sys2Proof.Machine
end

