-- ==== Sys2Proof/Machine/Control.lean ====
section
/-! DEFINITION. Machine/Control.lean: CONSTRUCT, RESET and the property reads (rules R260 to R267). -/
namespace Sys2Proof.Machine

/-- The chip CONSTRUCT makes (rules R260, R330). -/
def freshChip (clock : Nat) : Chip := { clock := clock, family := .ref, st := MutState.reset }

/-- The property `sample_rate` (rules R21, R263). -/
def sampleRate (c : Chip) : Nat := ceilDiv c.clock c.family.params.div

/-- CONSTRUCT, rule R260: a new chip replaces any earlier one; a failing CONSTRUCT leaves it (rule R269). -/
def execConstruct (clock : Arg) (s : State) : Result :=
  match checkClock .ref clock with
  | none => raise .invalidArgument .clock s
  | some hz => finishWith (freshChip hz) s

/-- RESET, rule R266: every mutable field to its reset value, the configuration kept. -/
def execReset (s : State) : Result :=
  onChip s fun c => finishWith { c with st := MutState.reset } s

/-- READ_CLOCK, rule R262. -/
def execReadClock (s : State) : Result :=
  onChip s fun c => answer (.integer c.clock) s

/-- READ_SAMPLE_RATE, rule R263. -/
def execReadSampleRate (s : State) : Result :=
  onChip s fun c => answer (.integer (sampleRate c)) s

/-- READ_OUTPUTS, rule R264. -/
def execReadOutputs (s : State) : Result :=
  onChip s fun c => answer (.integer c.family.params.outputs) s

end Sys2Proof.Machine
end

