-- ==== Sys2Proof/Machine/RegisterInterface.lean ====
section
/-! DEFINITION. Machine/RegisterInterface.lean: WRITE, WRITE_ADDRESS and WRITE_DATA (rules R110 to R117). -/
namespace Sys2Proof.Machine

/-- Latch an address (rule R111). -/
def latchAddress (a : Byte) (c : Chip) : Chip := { c with st := { c.st with latch := a } }

/-- Store a byte at the latched address (rule R113). -/
def storeAtLatch (v : Byte) (c : Chip) : Chip :=
  { c with st := { c.st with regs := c.st.regs.write c.st.latch v } }

/-- WRITE, rule R112: both checks, the address first (rule R306), then the latch and the register. -/
def execWrite (address value : Arg) (s : State) : Result :=
  onChip s fun c =>
    match checkByte address with
    | none => raise .invalidArgument .address s
    | some a =>
      match checkByte value with
      | none => raise .invalidArgument .value s
      | some v => finishWith (storeAtLatch v (latchAddress a c)) s

/-- WRITE_ADDRESS, rule R111; a family without split writes raises Unsupported (rule R117). -/
def execWriteAddress (addr : Arg) (s : State) : Result :=
  onChip s fun c =>
    if c.family.params.splitWrite then
      match checkByte addr with
      | none => raise .invalidArgument .address s
      | some a => finishWith (latchAddress a c) s
    else raise .unsupported .family s

/-- WRITE_DATA, rule R113; a family without split writes raises Unsupported (rule R117). -/
def execWriteData (value : Arg) (s : State) : Result :=
  onChip s fun c =>
    if c.family.params.splitWrite then
      match checkByte value with
      | none => raise .invalidArgument .value s
      | some v => finishWith (storeAtLatch v c) s
    else raise .unsupported .family s

end Sys2Proof.Machine
end

