-- ==== Sys2Proof/Machine/Envelope.lean ====
section
/-! DEFINITION. Machine/Envelope.lean: the envelope generator (rules R180 to R192). -/
namespace Sys2Proof.Machine

/-- `EG_STEP` of rule R182: the level change per envelope clock. -/
def egStep (rate : Nat) : Nat :=
  [0, 1, 2, 3, 4, 6, 8, 12, 16, 24, 32, 48, 64, 128, 256, 1024].getD rate 0

/-- A tick is an envelope clock when the envelope timer is a multiple of 8 at its start (rule R181). -/
def envelopeClock (timer : BitVec 16) : Bool := timer.toNat % 8 == 0

/-- ATTACK (rule R186). -/
def egAttack (r : Memory) (k : Fin 8) (o : Operator) : Operator :=
  let level := min 1023 (o.level.toNat + egStep (fieldAr r k))
  { o with level := BitVec.ofNat 10 level, eg := if level = 1023 then .decay else .attack }

/-- DECAY (rule R187); `nl` may be below zero. -/
def egDecay (r : Memory) (k : Fin 8) (o : Operator) : Operator :=
  let target : Int := 1023 - Int.ofNat (fieldSl r k) * 64
  let nl : Int := Int.ofNat o.level.toNat - Int.ofNat (egStep (fieldDr r k))
  if nl ≤ target then { o with level := BitVec.ofNat 10 target.toNat, eg := .sustain }
  else { o with level := BitVec.ofNat 10 nl.toNat }

/-- RELEASE (rule R189). -/
def egRelease (r : Memory) (k : Fin 8) (o : Operator) : Operator :=
  let level := o.level.toNat - egStep (fieldRr r k)
  { o with level := BitVec.ofNat 10 level, eg := if level = 0 then .off else .release }

/-- EG_UPDATE: the one of rules R186 to R190 that matches the segment. -/
def egUpdate (r : Memory) (k : Fin 8) (o : Operator) : Operator :=
  match o.eg with
  | .off => o
  | .attack => egAttack r k o
  | .decay => egDecay r k o
  | .sustain => o
  | .release => egRelease r k o

end Sys2Proof.Machine
end

