-- ==== Sys2Proof/Machine/Flags.lean ====
section
/-! DEFINITION. Machine/Flags.lean: the CORE has no status register and no condition code (rule R29); its only flags are
the key flags, and this file holds their rule (rules R35, R183 to R185). -/
namespace Sys2Proof.Machine

/-- `KEY(k)` of rule R101: operator `k`'s key bit, on or off. -/
def keyBit (r : Memory) (k : Fin 8) : Bool := r.field (0x20 + channelOf k) (k.val % 2) (k.val % 2) == 1

/-- KEY_EDGE of rule R183: compare the stored key bit with the key flag, take the key-on edge (rule R184) or the
key-off edge (rule R185), and record the bit. The level is kept by both edges. -/
def keyEdge (r : Memory) (k : Fin 8) (o : Operator) : Operator :=
  match keyBit r k, o.kprev with
  | true, false => { o with eg := .attack, phase := 0#20, kprev := true }
  | false, true => { o with eg := .release, kprev := false }
  | true, true => o
  | false, false => o

end Sys2Proof.Machine
end

