-- ==== Sys2Proof/Machine/Phase.lean ====
section
/-! DEFINITION. Machine/Phase.lean: the phase accumulator, the waveform lookup, an operator's output, and the
LFO (rules R150 to R165). -/
namespace Sys2Proof.Machine

/-! ### Phase accumulator -/

/-- `MULX2` of rule R151: twice the frequency multiple. -/
def mulX2 (mul : Nat) : Nat := [1, 2, 4, 6, 8, 10, 12, 14, 16, 18, 20, 22, 24, 26, 28, 30].getD mul 0

/-- STEP of rule R152. -/
def phaseStep (r : Memory) (k : Fin 8) : Nat :=
  fieldFnum r (channelOf k) * 2 ^ fieldBlock r (channelOf k) * mulX2 (fieldMul r k) / 2 ^ 2

/-- The phase advance of rule R153: the exact sum, reduced modulo 2^20. -/
def advancePhase (r : Memory) (k : Fin 8) (o : Operator) : Operator :=
  { o with phase := BitVec.ofNat 20 (o.phase.toNat + phaseStep r k) }

/-! ### Waveform lookup -/

/-- IDX of rule R154: the top 8 bits of a phase. -/
def waveIndex (p : BitVec 20) : Nat := bits p.toNat 19 12

/-- The quarter-wave table `Q` of rule R155. -/
def quarterWave (j : Nat) : Nat :=
  ([25, 75, 126, 176, 226, 275, 325, 375, 424, 473, 522, 570, 618, 666, 713, 760] ++
   [807, 852, 898, 943, 987, 1031, 1074, 1116, 1158, 1199, 1239, 1279, 1318, 1356, 1393, 1430] ++
   [1465, 1500, 1533, 1566, 1598, 1629, 1659, 1688, 1716, 1743, 1769, 1793, 1817, 1840, 1861, 1881] ++
   [1901, 1919, 1936, 1951, 1966, 1979, 1992, 2003, 2012, 2021, 2028, 2035, 2039, 2043, 2046, 2047]).getD j 0

/-- SINE of rule R156. -/
def sine (i : Nat) : Int :=
  let j := bits i 5 0
  match bits i 7 6 with
  | 0 => Int.ofNat (quarterWave j)
  | 1 => Int.ofNat (quarterWave (63 - j))
  | 2 => -Int.ofNat (quarterWave j)
  | _ => -Int.ofNat (quarterWave (63 - j))

/-- WAVE of rule R157. -/
def wave (ws i : Nat) : Int :=
  match ws with
  | 0 => sine i
  | 1 => if i < 128 then sine i else 0
  | 2 => sine (i % 128)
  | _ => if i < 128 then 2047 else -2047

/-! ### Operator amplitude and output -/

/-- AMP of rule R158: the level under the total level. -/
def amplitude (r : Memory) (k : Fin 8) (o : Operator) : Nat := o.level.toNat * (128 - fieldTl r k) / 2 ^ 7

/-- The amplitude after the LFO's modulation, if the operator takes it (rules R159, R162). -/
def modulatedAmplitude (r : Memory) (k : Fin 8) (o : Operator) (am : Nat) : Nat :=
  if fieldAm r k = 1 then amplitude r k o * (128 - am) / 2 ^ 7 else amplitude r k o

/-- OP_OUT of rule R159: the signed output of operator `k` at the effective phase `p`. -/
def opOut (r : Memory) (k : Fin 8) (o : Operator) (p : BitVec 20) (am : Nat) : Int :=
  asr (wave (fieldWs r k) (waveIndex p) * Int.ofNat (modulatedAmplitude r k o am)) 10

/-! ### Low-frequency oscillator -/

/-- `LFO_STEP` of rule R160. -/
def lfoStep (rate : Nat) : Nat :=
  [0, 1, 2, 4, 8, 16, 32, 64, 128, 256, 512, 1024, 2048, 4096, 8192, 16384].getD rate 0

/-- The LFO counter's advance (rule R160). -/
def advanceLfo (r : Memory) (lfo : BitVec 16) : BitVec 16 := BitVec.ofNat 16 (lfo.toNat + lfoStep (fieldRate r))

/-- LFO_AM of rule R161: the tick's amplitude-modulation amount. -/
def lfoAm (lfo : BitVec 16) (r : Memory) : Nat :=
  let t := bits lfo.toNat 15 8
  let tri := if t < 128 then t else 255 - t
  tri * fieldDepth r / 2 ^ 4

end Sys2Proof.Machine
end

