-- ==== Sys2Proof/Machine/Mixer.lean ====
section
/-! DEFINITION. Machine/Mixer.lean: the channel mixer and the output scaler (rules R210 to R217). -/
namespace Sys2Proof.Machine

/-- EFFECTIVE_ALG of rule R211: an undefined algorithm index falls back to 0. -/
def effectiveAlg (a : Nat) : Nat := if a = 1 then 1 else 0

/-- The modulator, operator 0 of channel `ch` (rule R8). -/
def modulatorOf (ch : Fin 4) : Fin 8 := ⟨2 * ch.val, by omega⟩

/-- The carrier, operator 1 of channel `ch` (rule R8). -/
def carrierOf (ch : Fin 4) : Fin 8 := ⟨2 * ch.val + 1, by omega⟩

/-- The modulator's output (rule R210). -/
def modulatorOut (r : Memory) (ops : OperatorBank) (ch : Fin 4) (am : Nat) : Int :=
  opOut r (modulatorOf ch) (ops.get (modulatorOf ch)) (ops.get (modulatorOf ch)).phase am

/-- The carrier's output at the effective phase `p` (rules R212, R213). -/
def carrierOut (r : Memory) (ops : OperatorBank) (ch : Fin 4) (p : BitVec 20) (am : Nat) : Int :=
  opOut r (carrierOf ch) (ops.get (carrierOf ch)) p am

/-- The carrier's effective phase under algorithm 0 (rule R212): signed modulation, Euclidean remainder. -/
def modulatedPhase (p : BitVec 20) (m : Int) : BitVec 20 := BitVec.ofInt 20 (Int.ofNat p.toNat + m * 512)

/-- CHANNEL_OUT of rule R210: frequency modulation (rule R212) or addition (rule R213). -/
def channelOut (r : Memory) (ops : OperatorBank) (ch : Fin 4) (am : Nat) : Int :=
  let m := modulatorOut r ops ch am
  let p := (ops.get (carrierOf ch)).phase
  if effectiveAlg (fieldAlg r ch.val) = 0 then carrierOut r ops ch (modulatedPhase p m) am
  else m + carrierOut r ops ch p am

/-- A channel's contribution to an output, if it is routed there (rule R214). -/
def routed (enable : Nat) (c : Int) : Int := if enable = 1 then c else 0

/-- The sum of the channels routed to output 0 (rule R214). -/
def leftSum (r : Memory) (c : Fin 4 → Int) : Int :=
  routed (fieldLen r 0) (c 0) + routed (fieldLen r 1) (c 1) + routed (fieldLen r 2) (c 2) + routed (fieldLen r 3) (c 3)

/-- The sum of the channels routed to output 1 (rule R214). -/
def rightSum (r : Memory) (c : Fin 4 → Int) : Int :=
  routed (fieldRen r 0) (c 0) + routed (fieldRen r 1) (c 1) + routed (fieldRen r 2) (c 2) + routed (fieldRen r 3) (c 3)

/-- The output scaler on one sum (rule R214): the master volume in units of 1/16, then the clamp. -/
def scale (r : Memory) (sum : Int) : Int := clamp16 (asr (sum * Int.ofNat (fieldMvol r)) 4)

/-- MIX of rule R214. -/
def mix (r : Memory) (c : Fin 4 → Int) : Frame :=
  { out0 := scale r (leftSum r c), out1 := scale r (rightSum r c) }

end Sys2Proof.Machine
end

