-- ==== Sys2Proof/Machine/Sequencer.lean ====
section
/-! DEFINITION. Machine/Sequencer.lean: the tick (rule R133) and GENERATE (rule R130). A tick reads the mutable state
and nothing else, so no frame depends on the clock (rule R131). -/
namespace Sys2Proof.Machine

/-- The operators as the tick's output sees them: after the key edges and, on an envelope clock, the envelope update
(rules R133, R181, R183). -/
def tickOperators (m : MutState) : OperatorBank :=
  let keyed := m.ops.update (keyEdge m.regs)
  if envelopeClock m.envTimer then keyed.update (egUpdate m.regs) else keyed

/-- The frame of a tick: the channel outputs and the mix, from the phases, the LFO and the levels before this tick's
advance (rule R133). -/
def tickFrame (m : MutState) : Frame :=
  let ops := tickOperators m
  let am := lfoAm m.lfo m.regs
  mix m.regs fun ch => channelOut m.regs ops ch am

/-- The state a tick leaves: phases, LFO and envelope timer advanced (rules R133, R136, R153, R160). -/
def tickNext (m : MutState) : MutState :=
  { m with
    ops := (tickOperators m).update (advancePhase m.regs)
    lfo := advanceLfo m.regs m.lfo
    envTimer := BitVec.ofNat 16 (m.envTimer.toNat + 1) }

/-- `n` ticks in order: their frames, the first in front, and the state they leave (rules R130, R139). -/
def runTicks : Nat → MutState → List Frame × MutState
  | 0, m => ([], m)
  | n + 1, m =>
    let later := runTicks n (tickNext m)
    (tickFrame m :: later.1, later.2)

/-- GENERATE, rule R130. -/
def execGenerate (n : Arg) (s : State) : Result :=
  onChip s fun c =>
    match checkCount n with
    | none => raise .invalidArgument .count s
    | some count =>
      let r := runTicks count c.st
      answer (.frames r.1) (s.withChip { c with st := r.2 })

end Sys2Proof.Machine
end

