-- ==== Sys2Proof/Machine/Snapshot.lean ====
section
/-! DEFINITION. Machine/Snapshot.lean: the state snapshot codec, SAVE_STATE and LOAD_STATE (rules R230 to R240). -/
namespace Sys2Proof.Machine

/-! ### Saving -/

/-- The 8 bytes of operator `k` in the layout of rule R231. -/
def operatorBytes (o : Operator) : List Byte :=
  leBytes 4 o.phase.toNat ++ leBytes 2 o.level.toNat ++ leBytes 1 o.eg.code ++ leBytes 1 o.kprev.toNat

/-- The 64 bytes of the operators, in order (rule R231). -/
def bankBytes (b : OperatorBank) : List Byte :=
  operatorBytes b.op0 ++ operatorBytes b.op1 ++ operatorBytes b.op2 ++ operatorBytes b.op3 ++
  operatorBytes b.op4 ++ operatorBytes b.op5 ++ operatorBytes b.op6 ++ operatorBytes b.op7

/-- The 8 header bytes of rule R231: magic, version, family, reserved. -/
def headerBytes (f : Family) : List Byte :=
  leBytes 4 0x53534D59 ++ leBytes 1 f.params.snapVersion ++ leBytes 1 f.params.familyId ++ leBytes 2 0

/-- The snapshot of rules R230 and R231: the fields are packed in the order of their offsets. -/
def saveBytes (f : Family) (m : MutState) : List Byte :=
  headerBytes f ++ m.regs.toBytes ++ leBytes 1 m.latch.toNat ++ leBytes 2 m.envTimer.toNat ++
  leBytes 2 m.lfo.toNat ++ bankBytes m.ops

/-- SAVE_STATE, rule R230: the chip is left as it was. -/
def execSaveState (s : State) : Result :=
  onChip s fun c => answer (.bytes (saveBytes c.family c.st)) s

/-! ### Loading -/

/-- The range checks of rule R235 on operator `k`'s fields. -/
def operatorFieldsValid (b : List Byte) (k : Nat) : Bool :=
  decide (memRead b (269 + 8 * k) 4 < 2 ^ 20) && decide (memRead b (273 + 8 * k) 2 ≤ 1023) &&
  decide (memRead b (275 + 8 * k) 1 ≤ 4) && decide (memRead b (276 + 8 * k) 1 ≤ 1)

/-- The first check a snapshot fails, if any, in the order of rules R234, R235 and R306. -/
def snapshotFailure (f : Family) (b : List Byte) : Option ErrorInfo :=
  if b.length ≠ f.params.snapLen then some .length
  else if memRead b 0 4 ≠ 0x53534D59 then some .format
  else if memRead b 4 1 ≠ f.params.snapVersion then some .version
  else if memRead b 5 1 ≠ f.params.familyId then some .family
  else if memRead b 6 2 ≠ 0 then some .format
  else if (List.range 8).all (operatorFieldsValid b) then none
  else some .field

/-- Operator `k` of a snapshot (rule R233). -/
def loadOperator (b : List Byte) (k : Nat) : Operator :=
  { phase := BitVec.ofNat 20 (memRead b (269 + 8 * k) 4)
    level := BitVec.ofNat 10 (memRead b (273 + 8 * k) 2)
    eg := Segment.ofCode (memRead b (275 + 8 * k) 1)
    kprev := memRead b (276 + 8 * k) 1 == 1 }

/-- The mutable state a valid snapshot holds (rules R233, R237). -/
def loadBytes (b : List Byte) : MutState :=
  { regs := Memory.ofBytes 0 ((b.drop 8).take 256)
    latch := BitVec.ofNat 8 (memRead b 264 1)
    envTimer := BitVec.ofNat 16 (memRead b 265 2)
    lfo := BitVec.ofNat 16 (memRead b 267 2)
    ops := OperatorBank.build fun k => loadOperator b k.val }

/-- LOAD_STATE, rule R233: every check before any write (rule R236), then the whole mutable state, the configuration
kept (rules R237, R238). -/
def execLoadState (payload : List Byte) (s : State) : Result :=
  onChip s fun c =>
    match snapshotFailure c.family payload with
    | some info => raise .invalidState info s
    | none => finishWith { c with st := loadBytes payload } s

end Sys2Proof.Machine
end

