-- ==== Sys2Proof/Machine/Dispatch.lean ====
section
/-! DEFINITION. Machine/Dispatch.lean: one arm per host operation, each its meaning. -/
namespace Sys2Proof.Machine

def exec (i : Instr) (s : State) : Host.Outcome State Fault Refusal :=
  match i with
  | .construct clock => Sys2Proof.Machine.execConstruct clock s
  | .write address value => Sys2Proof.Machine.execWrite address value s
  | .writeAddress addr => Sys2Proof.Machine.execWriteAddress addr s
  | .writeData value => Sys2Proof.Machine.execWriteData value s
  | .generate n => Sys2Proof.Machine.execGenerate n s
  | .saveState => Sys2Proof.Machine.execSaveState s
  | .loadState payload => Sys2Proof.Machine.execLoadState payload s
  | .reset => Sys2Proof.Machine.execReset s
  | .readClock => Sys2Proof.Machine.execReadClock s
  | .readSampleRate => Sys2Proof.Machine.execReadSampleRate s
  | .readOutputs => Sys2Proof.Machine.execReadOutputs s

end Sys2Proof.Machine
end

