-- ==== Sys2Proof/Machine/Stream.lean ====
section
/-! DEFINITION. Machine/Stream.lean: the stream runner (rules R269, R270), one command a step. -/
namespace Sys2Proof.Machine

/-- Rule R269's start of a run on a stream: no chip, no result. -/
def runStart (stream : List Byte) : State :=
  { chip := none, reply := .nothing, stream := stream, offset := 0, results := [], status := .running }

/-- The run returns an error at the offset of the command at the head of the stream, and what was performed before
stays (rule R270). DESIGN CHOICE (log entry 8): the reply, the stream and the offset stay too. Safe. -/
def failRun (e : Error) (s : State) : State := { s with status := .failed e s.offset }

/-- After a performed command of `n` bytes: an error ends the run; a value joins the results; otherwise the next
command is the one after it (rules R81, R269). -/
def afterCommand (n : Nat) (rest : List Byte) (t : State) : State :=
  match t.reply with
  | .error e => failRun e t
  | .value v => { t with results := t.results ++ [v], stream := rest, offset := t.offset + n }
  | .nothing => { t with stream := rest, offset := t.offset + n }

/-- Perform one decoded command and pass to the next. -/
def performCommand (i : Instr) (n : Nat) (rest : List Byte) (s : State) : Result :=
  match exec i s with
  | .next t => .next (afterCommand n rest t)
  | .fault f => .fault f
  | .refused r => .refused r

/-- One turn of rule R269's loop on a run that has not returned. -/
def runCommand (s : State) : Result :=
  match decodeOne s.stream with
  | .done => .next { s with status := .finished }
  | .reserved => .next (failRun { kind := .unsupported, info := .reservedOpcode } s)
  | .truncated => .next (failRun { kind := .invalidArgument, info := .truncated } s)
  | .command i n rest => performCommand i n rest s

/-- One step of the runner. A run that has returned has no further command (rule R270: "commands after it are not
decoded or performed"), so a step of it is stuck. -/
def runStep (s : State) : Result :=
  match s.status with
  | .running => runCommand s
  | .finished => .fault .runReturned
  | .failed _ _ => .fault .runReturned

/-- Store bytes over the head of the stream, where the next step decodes, and let the run be running. -/
def placeBytes (bytes : List Byte) (s : State) : State :=
  { s with stream := bytes ++ s.stream.drop bytes.length, status := .running }

end Sys2Proof.Machine
end

