-- ==== Sys2Proof/Machine/Step.lean ====
section
/-! DEFINITION. Machine/Step.lean: the step of the machine, and a command placed where the next step decodes. -/
namespace Sys2Proof.Machine

/-- One step: one command of the stream (rules R6, R269). -/
def step (s : State) : Host.Outcome State Fault Refusal := runStep s

/-- `s` with the command whose table bits are `w` at the head of its stream. -/
def State.withFetchWord (s : State) (nbits w : Nat) : State := placeBytes (tableBytes nbits w) s

end Sys2Proof.Machine
end

