-- ==== Sys2Proof/Machine/Assembler.lean ====
section
/-! DEFINITION. Machine/Assembler.lean: the assembly text of a command (rule R99) and the pseudo-commands (rule R100), and the
reader of program text (rules R99, R100). No step of the machine uses them. -/
namespace Sys2Proof.Machine

/-! ### Assembly text -/

/-- A number as rule R99 writes it, in decimal; a negative one takes a minus sign (DESIGN CHOICE, log entry 16). -/
def argText : Arg → String
  | .int v => toString v
  | .nonInteger => "?"

/-- The text of a command (rule R99); `payloadName` is the name the program gives a LOAD_STATE's bytes. -/
def assemblyText (payloadName : String) : Instr → String
  | .construct clock => "construct " ++ argText clock
  | .write address value => "write " ++ argText address ++ ", " ++ argText value
  | .writeAddress addr => "write_address " ++ argText addr
  | .writeData value => "write_data " ++ argText value
  | .generate n => "generate " ++ argText n
  | .saveState => "save_state"
  | .loadState _ => "load_state " ++ payloadName
  | .reset => "reset"
  | .readClock => "clock"
  | .readSampleRate => "sample_rate"
  | .readOutputs => "outputs"

/-! ### Pseudo-commands -/

/-- The pseudo-commands of rule R100. -/
inductive Pseudo where
  | volume (v : Nat)
  | lfo (rate depth : Nat)
  | setfreq (ch fnum block : Nat)
  | keyon (ch mask : Nat)
  | keyoff (ch : Nat)
  | chctl (ch alg len ren : Nat)
  | envelope (k ar dr sl rr : Nat)
  | opctl (k mul ws am tl : Nat)
  deriving DecidableEq, Repr

/-- The operands lie in the field ranges of rules R31 to R40; otherwise it is an assembly error (rule R100). -/
def pseudoInRange : Pseudo → Bool
  | .volume v => decide (v < 256)
  | .lfo rate depth => decide (rate < 16) && decide (depth < 16)
  | .setfreq ch fnum block => decide (ch < 4) && decide (fnum < 2048) && decide (block < 8)
  | .keyon ch mask => decide (ch < 4) && decide (mask < 4)
  | .keyoff ch => decide (ch < 4)
  | .chctl ch alg len ren => decide (ch < 4) && decide (alg < 8) && decide (len < 2) && decide (ren < 2)
  | .envelope k ar dr sl rr =>
    decide (k < 8) && decide (ar < 16) && decide (dr < 16) && decide (sl < 16) && decide (rr < 16)
  | .opctl k mul ws am tl =>
    decide (k < 8) && decide (mul < 16) && decide (ws < 4) && decide (am < 2) && decide (tl < 128)

/-- A WRITE of two numbers. -/
def writeCommand (address value : Nat) : Instr := .write (Arg.nat address) (Arg.nat value)

/-- The WRITE commands of rule R100's expansion column, in order. -/
def pseudoCommands : Pseudo → List Instr
  | .volume v => [writeCommand 0x03 v]
  | .lfo rate depth => [writeCommand 0x02 (rate + 16 * depth)]
  | .setfreq ch fnum block =>
    [writeCommand (0x10 + ch) (fnum % 256), writeCommand (0x14 + ch) (fnum / 256 + 8 * block)]
  | .keyon ch mask => [writeCommand (0x20 + ch) mask]
  | .keyoff ch => [writeCommand (0x20 + ch) 0]
  | .chctl ch alg len ren => [writeCommand (0x28 + ch) (alg + 16 * len + 32 * ren)]
  | .envelope k ar dr sl rr =>
    [writeCommand (0x40 + k) (16 * ar + dr), writeCommand (0x48 + k) (16 * sl + rr)]
  | .opctl k mul ws am tl =>
    [writeCommand (0x50 + k) (mul + 16 * ws + 64 * am), writeCommand (0x58 + k) tl]

/-- Rule R100: the commands of a pseudo-command, or no command where an operand is out of its range. -/
def expandPseudo (p : Pseudo) : Option (List Instr) :=
  if pseudoInRange p then some (pseudoCommands p) else none

/-! ### Reading program text -/

/-- A blank between the parts of a line. -/
def isBlank (c : Char) : Bool := c == ' ' || c == '\t'

/-- A text without the blanks at its two ends. -/
def trimBlanks (l : List Char) : List Char := ((l.dropWhile isBlank).reverse.dropWhile isBlank).reverse

/-- The value of a digit in a base. -/
def digitValue (base : Nat) (c : Char) : Option Nat :=
  let v :=
    if 48 ≤ c.toNat ∧ c.toNat ≤ 57 then some (c.toNat - 48)
    else if 97 ≤ c.toNat ∧ c.toNat ≤ 102 then some (c.toNat - 87)
    else if 65 ≤ c.toNat ∧ c.toNat ≤ 70 then some (c.toNat - 55)
    else none
  v.filter fun d => d < base

/-- The value of a run of digits after `acc`. -/
def digitsValue (base acc : Nat) : List Char → Option Nat
  | [] => some acc
  | c :: cs => (digitValue base c).bind fun d => digitsValue base (acc * base + d) cs

/-- An unsigned number of rule R99: decimal, or `0x` hexadecimal (a minus sign: `signedValue`, log entry 16). -/
def numberValue : List Char → Option Nat
  | [] => none
  | '0' :: 'x' :: d :: ds => digitsValue 16 0 (d :: ds)
  | d :: ds => digitsValue 10 0 (d :: ds)

/-- A number with or without a minus sign. DESIGN CHOICE (log entry 16): rule R99 is silent on signs, and V-SEQ-3 and V-CTL-2 of
95_test_vectors.md write `generate -1` and `construct -5`, so one minus sign is read before a number of either base, as
`argText` prints it; a plus sign and a fraction (V-CTL-2's `construct 1.5`) are assembly errors. Safe: no step reads text. -/
def signedValue : List Char → Option Int
  | '-' :: ds => (numberValue ds).map fun n => -Int.ofNat n
  | ds => (numberValue ds).map Int.ofNat

/-- The parts of a text between its commas. -/
def splitCommas : List Char → List (List Char)
  | [] => [[]]
  | c :: cs =>
    match splitCommas cs with
    | [] => [[c]]
    | w :: ws => if c = ',' then [] :: w :: ws else (c :: w) :: ws

/-- The numbers of an operand text, none when it is blank. -/
def operandNumbers (l : List Char) : Option (List Int) :=
  if (trimBlanks l).isEmpty then some [] else (splitCommas l).mapM fun w => signedValue (trimBlanks w)

/-- The command of a mnemonic of rule R99 with numeric operands. -/
def plainCommand (mnemonic : String) (operands : List Int) : Option Instr :=
  match operands with
  | [] =>
    if mnemonic = "save_state" then some .saveState
    else if mnemonic = "reset" then some .reset
    else if mnemonic = "clock" then some .readClock
    else if mnemonic = "sample_rate" then some .readSampleRate
    else if mnemonic = "outputs" then some .readOutputs
    else none
  | [a] =>
    if mnemonic = "construct" then some (.construct (.int a))
    else if mnemonic = "write_address" then some (.writeAddress (.int a))
    else if mnemonic = "write_data" then some (.writeData (.int a))
    else if mnemonic = "generate" then some (.generate (.int a))
    else none
  | [a, v] => if mnemonic = "write" then some (.write (.int a) (.int v)) else none
  | _ => none

/-- The pseudo-command of a mnemonic of rule R100 with numeric operands. -/
def pseudoOf (mnemonic : String) (operands : List Nat) : Option Pseudo :=
  match operands with
  | [a] =>
    if mnemonic = "volume" then some (.volume a)
    else if mnemonic = "keyoff" then some (.keyoff a)
    else none
  | [a, b] =>
    if mnemonic = "lfo" then some (.lfo a b)
    else if mnemonic = "keyon" then some (.keyon a b)
    else none
  | [ch, fnum, block] => if mnemonic = "setfreq" then some (.setfreq ch fnum block) else none
  | [ch, alg, len, ren] => if mnemonic = "chctl" then some (.chctl ch alg len ren) else none
  | [k, a, b, c, d] =>
    if mnemonic = "envelope" then some (.envelope k a b c d)
    else if mnemonic = "opctl" then some (.opctl k a b c d)
    else none
  | _ => none

/-- The commands of a mnemonic with numeric operands: its own, or the expansion of a pseudo-command, whose fields take no
negative operand (rule R100). -/
def numericCommands (mnemonic : String) (operands : List Int) : Option (List Instr) :=
  match plainCommand mnemonic operands with
  | some i => some [i]
  | none =>
    if operands.all fun v => decide (0 ≤ v) then (pseudoOf mnemonic (operands.map Int.toNat)).bind expandPseudo else none

/-- The commands of a line without its comment and its result name; `payloads` are the named byte sequences. -/
def lineCommands (payloads : List (String × List Byte)) (text : List Char) : Option (List Instr) :=
  let mnemonic := String.ofList (text.takeWhile fun c => !isBlank c)
  let operands := text.dropWhile fun c => !isBlank c
  if text.isEmpty then some []
  else if mnemonic = "load_state" then
    (payloads.lookup (String.ofList (trimBlanks operands))).map fun b => [.loadState b]
  else (operandNumbers operands).bind (numericCommands mnemonic)

/-- A line of rule R99: its commands (none for a blank line, several for a pseudo-command), with the name it gives to
the result of a SAVE_STATE, if any; no answer is an assembly error. -/
def assembleLine (payloads : List (String × List Byte)) (line : String) : Option (Option String × List Instr) :=
  let text := line.toList.takeWhile fun c => c != ';'
  if text.contains '=' then
    let name := String.ofList (trimBlanks (text.takeWhile fun c => c != '='))
    let body := trimBlanks ((text.dropWhile fun c => c != '=').drop 1)
    if body = "save_state".toList then some (some name, [.saveState]) else none
  else (lineCommands payloads (trimBlanks text)).map fun is => (none, is)

/-- The commands of a program text, line by line (rule R99). -/
def assemble (payloads : List (String × List Byte)) (lines : List String) : Option (List Instr) :=
  (lines.mapM (assembleLine payloads)).map fun ls => ls.flatMap Prod.snd

end Sys2Proof.Machine
end

