-- ==== Sys2Proof/Safety.lean ====
section
/-! DEFINITION. Safety.lean: the legal states (rules R20 to R27, R46, R138), which every step keeps. -/
namespace Sys2Proof.Machine

/-- Both outputs are signed 16-bit integers (rules R46, R215). -/
def Frame.inRange (f : Frame) : Bool :=
  decide (-32768 ≤ f.out0) && decide (f.out0 ≤ 32767) && decide (-32768 ≤ f.out1) && decide (f.out1 ≤ 32767)

/-- A value an operation may return: frames in range (rule R46), a snapshot of the fixed length (rule R231), or
a positive integer (rules R21, R263, R264). -/
def Value.legal : Value → Bool
  | .frames fs => fs.all Frame.inRange
  | .bytes bs => bs.length == 333
  | .integer n => decide (1 ≤ n)

/-- The value in a reply, if there is one, is legal. -/
def Reply.legal : Reply → Bool
  | .nothing => true
  | .value v => v.legal
  | .error _ => true

/-- A chip is legal: its clock is valid (rule R21) and its register file is in canonical form (rule R23). The other ranges
of rules R24 to R26 are the types of the fields. -/
def Chip.legal (c : Chip) : Bool := decide (1 ≤ c.clock) && c.st.regs.wf

/-- The chip, if there is one, is legal, and so is everything the run has returned. -/
def State.legal (s : State) : Bool := s.chip.all Chip.legal && s.reply.legal && s.results.all Value.legal

end Sys2Proof.Machine
end

