-- ==== Sys2Proof/Certificates/Slice0/Obligations.lean ====
section
/-! DEFINITION. Certificates/Slice0/Obligations.lean: the statements for the provers, each from numbered rules of spec/. -/

open Sys2Proof Sys2Proof.Machine

/-! ### Encoding (30_encoding.md) -/

/-- Rules R83 to R94: the bytes of every well-formed operation, followed by anything, decode to it, with its length, and leave
what follows. -/
def Obligations.DecodeOfEncodeIsTheOperation : Prop :=
  ∀ (i : Instr) (rest : List Byte), i.wellFormed = true →
    decodeOne (encode i ++ rest) = .command i i.byteLength rest

/-- Rules R94, R98: whatever decodes to an operation is that operation's own bytes, and the operation is well formed: each operation
has one encoding. -/
def Obligations.EncodeOfDecodeIsTheBytes : Prop :=
  ∀ (stream rest : List Byte) (i : Instr) (n : Nat), decodeOne stream = .command i n rest →
    i.wellFormed = true ∧ n = i.byteLength ∧ stream = encode i ++ rest

/-- Rule R95: exactly 0x00 and 0x0C to 0xFF are reserved, and a running stream that stands at one reports Unsupported at its offset
and stops, the chip and the results as they were (rule R270). That the reply, the stream and the offset stay too is the model's
choice (log entry 8). -/
def Obligations.ReservedOpcodesAreUnsupported : Prop :=
  (∀ (op : Byte) (rest : List Byte),
    decodeOne (op :: rest) = .reserved ↔ (op.toNat = 0x00 ∨ 0x0C ≤ op.toNat)) ∧
  (∀ (s : State) (op : Byte) (rest : List Byte), s.status = .running → s.stream = op :: rest →
    (op.toNat = 0x00 ∨ 0x0C ≤ op.toNat) →
    step s = .next { s with status := .failed ⟨.unsupported, .reservedOpcode⟩ s.offset })

/-- Rule R96: a defined opcode whose bytes end early is truncated, and a running stream that stands at one reports InvalidArgument at
its offset and stops without performing any part of it, the chip and the results as they were (rule R270). That the reply, the
stream and the offset stay too is the model's choice (log entry 8). -/
def Obligations.TruncatedCommandsAreInvalidArgument : Prop :=
  (∀ (op : Byte) (rest : List Byte),
    decodeOne (op :: rest) = .truncated ↔
      ((op.toNat = 0x03 ∨ op.toNat = 0x04) ∧ rest.length < 1) ∨
      (op.toNat = 0x02 ∧ rest.length < 2) ∨
      ((op.toNat = 0x01 ∨ op.toNat = 0x05) ∧ rest.length < 4) ∨
      (op.toNat = 0x07 ∧ (rest.length < 2 ∨ rest.length < 2 + leNat (rest.take 2)))) ∧
  (∀ s : State, s.status = .running → decodeOne s.stream = .truncated →
    step s = .next { s with status := .failed ⟨.invalidArgument, .truncated⟩ s.offset })

/-- Rule R97: the decoder is total: every byte sequence is the encodings of the commands it returns, followed by nothing, or by the
first bad command, whose verdict and offset it returns. -/
def Obligations.DecoderReturnsCommandsThenVerdict : Prop :=
  ∀ stream : List Byte, ∃ (l : List Instr) (tail : List Byte),
    (∀ i ∈ l, i.wellFormed = true) ∧ stream = l.flatMap encode ++ tail ∧
    (decodeStream stream).1.map Prod.snd = l ∧
    ((tail = [] ∧ (decodeStream stream).2 = none) ∨
     (decodeOne tail = .reserved ∧ (decodeStream stream).2 = some (.reserved (l.flatMap encode).length)) ∨
     (decodeOne tail = .truncated ∧ (decodeStream stream).2 = some (.truncated (l.flatMap encode).length)))

/-- Rules R83, R84, R87, R89, R92: words written out from the spec's patterns decode to what they stand for (a sanity statement). -/
def Obligations.WrittenOutWordsDecode : Prop :=
  decodeOne [0x01#8, 0x99#8, 0x9e#8, 0x36#8, 0x00#8] = .command (.construct (.int 3579545)) 5 [] ∧
  decodeOne [0x02#8, 0x03#8, 0x10#8] = .command (.write (.int 3) (.int 16)) 3 [] ∧
  decodeOne [0x05#8, 0x0c#8, 0x00#8, 0x00#8, 0x00#8] = .command (.generate (.int 12)) 5 [] ∧
  decodeOne [0x07#8, 0x02#8, 0x00#8, 0xaa#8, 0xbb#8, 0x08#8] =
    .command (.loadState [0xaa#8, 0xbb#8]) 5 [0x08#8] ∧
  decodeOne [0x0A#8] = .command .readSampleRate 1 []

/-! ### The stream runner and errors (46_control.md, 60_exceptions.md) -/

/-- Rule R269: when the bytes at the head of a running stream decode to an operation, the step is exec of that operation, and then: an
error ends the run at this command's offset, a value joins the results, and without an error the next command is the one
after this. That the stream and the offset stay when an error ends the run is the model's choice (log entry 8). -/
def Obligations.StepPerformsTheDecodedOperation : Prop :=
  ∀ (s : State) (i : Instr) (n : Nat) (rest : List Byte), s.status = .running →
    decodeOne s.stream = .command i n rest →
    ∃ t, exec i s = .next t ∧
      step s = .next (match t.reply with
        | .error e => { t with status := .failed e t.offset }
        | .value v => { t with results := t.results ++ [v], stream := rest, offset := t.offset + n }
        | .nothing => { t with stream := rest, offset := t.offset + n })

/-- Rules R269, R270: at the end of its stream a run returns `ok`; a run that has returned performs nothing more (the fault
`runReturned` is the model's word for it, log entry 4). -/
def Obligations.RunReturnsAtTheEndAndThenStops : Prop :=
  (∀ s : State, s.status = .running → s.stream = [] → step s = .next { s with status := .finished }) ∧
  (∀ s : State, s.status ≠ .running → step s = .fault .runReturned)

/-- Rule R270: a step that ends the run with an error leaves the chip and the results as they were, and reports the offset of the
command that failed (rule R269). That the stream and the offset stay too is the model's choice (log entry 8). -/
def Obligations.ErrorEndsTheRunAndChangesNothing : Prop :=
  ∀ (s t : State) (e : Error) (o : Nat), step s = .next t → t.status = .failed e o →
    s.status = .running ∧ o = s.offset ∧ t.chip = s.chip ∧ t.results = s.results ∧
    t.stream = s.stream ∧ t.offset = s.offset

/-- Rule R304: an operation that raises an error changes no state at all: only its result is handed over. -/
def Obligations.RaisingOperationChangesNothing : Prop :=
  ∀ (i : Instr) (s t : State) (e : Error), exec i s = .next t → t.reply = .error e →
    t = { s with reply := .error e }

/-- Rules R138, R139, R305: every operation in every state answers, without touching the runner's stream, offset, results or status. -/
def Obligations.EveryOperationAnswersWithinTheCall : Prop :=
  ∀ (i : Instr) (s : State), ∃ t, exec i s = .next t ∧
    t.stream = s.stream ∧ t.offset = s.offset ∧ t.results = s.results ∧ t.status = s.status

/-- Rules R301, R302, R303 (the causes that are operations') and R306: the errors of an operation on a chip are exactly these. LOAD_STATE
reports the first check that fails: length, magic, version, family, reserved bytes, then the fields of the operators (one info for
every field, so their order among themselves cannot be told). -/
def Obligations.OperationErrorsAreTheListedCauses : Prop :=
  ∀ (i : Instr) (s : State) (c : Chip) (e : Error), s.chip = some c →
    ((∃ t, exec i s = .next t ∧ t.reply = .error e) ↔
      match i with
      | .construct a => e = ⟨.invalidArgument, .clock⟩ ∧ ∀ v, a = .int v → v ≤ 0
      | .write a b =>
        (e = ⟨.invalidArgument, .address⟩ ∧ ∀ v, a = .int v → v < 0 ∨ 255 < v) ∨
        (e = ⟨.invalidArgument, .value⟩ ∧ (∃ v, a = .int v ∧ 0 ≤ v ∧ v ≤ 255) ∧
          ∀ v, b = .int v → v < 0 ∨ 255 < v)
      | .writeAddress a => e = ⟨.invalidArgument, .address⟩ ∧ ∀ v, a = .int v → v < 0 ∨ 255 < v
      | .writeData b => e = ⟨.invalidArgument, .value⟩ ∧ ∀ v, b = .int v → v < 0 ∨ 255 < v
      | .generate a => e = ⟨.invalidArgument, .count⟩ ∧ ∀ v, a = .int v → v < 0
      | .saveState => False
      | .loadState b => e.kind = .invalidState ∧ some e.info =
        if b.length ≠ 333 then some .length
        else if b.take 4 ≠ [0x59#8, 0x4D#8, 0x53#8, 0x53#8] then some .format
        else if b[4]? ≠ some 0x01#8 then some .version
        else if b[5]? ≠ some 0x01#8 then some .family
        else if b[6]? ≠ some 0x00#8 ∨ b[7]? ≠ some 0x00#8 then some .format
        else if (List.range 8).all fun k => decide (memRead b (269 + 8 * k) 4 < 1048576) && decide (memRead b (273 + 8 * k) 2 ≤ 1023) &&
          decide (memRead b (275 + 8 * k) 1 ≤ 4) && decide (memRead b (276 + 8 * k) 1 ≤ 1) then none
        else some .field
      | .reset => False
      | .readClock => False
      | .readSampleRate => False
      | .readOutputs => False)

/-- Rules R269, R302, R306: with no chip, every operation but CONSTRUCT raises InvalidState (no_instance), whatever its arguments. -/
def Obligations.OperationBeforeConstructIsInvalidState : Prop :=
  ∀ (i : Instr) (s : State), s.chip = none → (∀ a, i ≠ .construct a) →
    exec i s = .next { s with reply := .error ⟨.invalidState, .noInstance⟩ }

/-! ### Construction, reset and properties (46_control.md) -/

/-- Rules R260, R261, R45: CONSTRUCT with an integer clock of at least 1 makes a chip with that clock, of family REF, with every mutable
field at its reset value; any other argument raises InvalidArgument and leaves what chip there was. -/
def Obligations.ConstructMakesAChipInTheResetState : Prop :=
  (∀ (s : State) (v : Int), 1 ≤ v → ∃ m : MutState,
    exec (.construct (.int v)) s =
      .next { s with chip := some { clock := v.toNat, family := .ref, st := m }, reply := .nothing } ∧
    (∀ a, m.regs.read a = 0x00#8) ∧ m.latch = 0x00#8 ∧
    (∀ k, m.ops.get k = { phase := 0#20, level := 0#10, eg := .off, kprev := false }) ∧
    m.envTimer = 0#16 ∧ m.lfo = 0#16) ∧
  (∀ (s : State) (a : Arg), (∀ v, a = .int v → v ≤ 0) →
    exec (.construct a) s = .next { s with reply := .error ⟨.invalidArgument, .clock⟩ })

/-- Rule R266: RESET puts every mutable field to its reset value and keeps the clock and the family. -/
def Obligations.ResetClearsTheMutableState : Prop :=
  ∀ (s : State) (c : Chip), s.chip = some c → ∃ m : MutState,
    exec .reset s = .next { s with chip := some { c with st := m }, reply := .nothing } ∧
    (∀ a, m.regs.read a = 0x00#8) ∧ m.latch = 0x00#8 ∧
    (∀ k, m.ops.get k = { phase := 0#20, level := 0#10, eg := .off, kprev := false }) ∧
    m.envTimer = 0#16 ∧ m.lfo = 0#16

/-- Rule R267: `reset(); reset()` gives the same state as one `reset()`. -/
def Obligations.ResetTwiceIsResetOnce : Prop :=
  ∀ (s t : State) (c : Chip), s.chip = some c → exec .reset s = .next t → exec .reset t = .next t

/-- Rules R262, R263, R264: the property reads answer the clock, the least `q` with `q * 64 ≥ clock`, and 2, and change nothing. -/
def Obligations.PropertyReadsAnswer : Prop :=
  ∀ (s : State) (c : Chip), s.chip = some c →
    exec .readClock s = .next { s with reply := .value (.integer c.clock) } ∧
    (∃ q, exec .readSampleRate s = .next { s with reply := .value (.integer q) } ∧
      c.clock ≤ q * 64 ∧ ∀ p, c.clock ≤ p * 64 → q ≤ p) ∧
    exec .readOutputs s = .next { s with reply := .value (.integer 2) }

/-- Rule R21: no operation changes the clock or the family after CONSTRUCT. -/
def Obligations.ConfigurationIsFixedAfterConstruct : Prop :=
  ∀ (i : Instr) (s t : State) (c : Chip), s.chip = some c → (∀ a, i ≠ .construct a) → exec i s = .next t →
    ∃ c', t.chip = some c' ∧ c'.clock = c.clock ∧ c'.family = c.family

/-! ### Register interface (40_register_interface.md) -/

/-- Rule R112: WRITE stores the byte, sets the latch, and leaves every other register and all else as it was; an argument out of range
raises InvalidArgument, the address checked first, and nothing changes. -/
def Obligations.WriteStoresTheByteAndSetsTheLatch : Prop :=
  (∀ (s : State) (c : Chip) (a v : Int), s.chip = some c → c.st.regs.wf = true →
    0 ≤ a → a ≤ 255 → 0 ≤ v → v ≤ 255 → ∃ m : Memory,
      exec (.write (.int a) (.int v)) s =
        .next { s with
          chip := some { c with st := { c.st with latch := BitVec.ofNat 8 a.toNat, regs := m } }
          reply := .nothing } ∧
      m.wf = true ∧ (m.read a.toNat).toNat = v.toNat ∧ ∀ b, b ≠ a.toNat → m.read b = c.st.regs.read b) ∧
  (∀ (s : State) (c : Chip) (a v : Arg), s.chip = some c → (∀ x, a = .int x → x < 0 ∨ 255 < x) →
    exec (.write a v) s = .next { s with reply := .error ⟨.invalidArgument, .address⟩ }) ∧
  (∀ (s : State) (c : Chip) (a : Int) (v : Arg), s.chip = some c → 0 ≤ a → a ≤ 255 →
    (∀ x, v = .int x → x < 0 ∨ 255 < x) →
    exec (.write (.int a) v) s = .next { s with reply := .error ⟨.invalidArgument, .value⟩ })

/-- Rule R111: WRITE_ADDRESS sets the latch and nothing else; an address out of range raises InvalidArgument and the latch keeps its
old value. -/
def Obligations.WriteAddressSetsOnlyTheLatch : Prop :=
  (∀ (s : State) (c : Chip) (a : Int), s.chip = some c → 0 ≤ a → a ≤ 255 →
    exec (.writeAddress (.int a)) s =
      .next { s with chip := some { c with st := { c.st with latch := BitVec.ofNat 8 a.toNat } }, reply := .nothing }) ∧
  (∀ (s : State) (c : Chip) (a : Arg), s.chip = some c → (∀ x, a = .int x → x < 0 ∨ 255 < x) →
    exec (.writeAddress a) s = .next { s with reply := .error ⟨.invalidArgument, .address⟩ })

/-- Rule R113: WRITE_DATA stores the byte at the latched address and leaves the latch, every other register and all else as they were; a
value out of range raises InvalidArgument. -/
def Obligations.WriteDataStoresAtTheLatch : Prop :=
  (∀ (s : State) (c : Chip) (v : Int), s.chip = some c → c.st.regs.wf = true → 0 ≤ v → v ≤ 255 →
    ∃ m : Memory,
      exec (.writeData (.int v)) s =
        .next { s with chip := some { c with st := { c.st with regs := m } }, reply := .nothing } ∧
      m.wf = true ∧ (m.read c.st.latch.toNat).toNat = v.toNat ∧
      ∀ b, b ≠ c.st.latch.toNat → m.read b = c.st.regs.read b) ∧
  (∀ (s : State) (c : Chip) (v : Arg), s.chip = some c → (∀ x, v = .int x → x < 0 ∨ 255 < x) →
    exec (.writeData v) s = .next { s with reply := .error ⟨.invalidArgument, .value⟩ })

/-- Rule R114: in range, WRITE and WRITE_ADDRESS followed by WRITE_DATA give the same state; out of range both forms raise
InvalidArgument, the split form having latched a valid address. -/
def Obligations.SplitWriteEqualsWrite : Prop :=
  (∀ (s : State) (c : Chip) (a v : Int), s.chip = some c → 0 ≤ a → a ≤ 255 → 0 ≤ v → v ≤ 255 →
    ∃ t u, exec (.writeAddress (.int a)) s = .next t ∧ exec (.writeData (.int v)) t = .next u ∧
      exec (.write (.int a) (.int v)) s = .next u) ∧
  (∀ (s : State) (c : Chip) (a v : Arg), s.chip = some c → (∀ x, a = .int x → x < 0 ∨ 255 < x) →
    exec (.writeAddress a) s = .next { s with reply := .error ⟨.invalidArgument, .address⟩ } ∧
    exec (.write a v) s = .next { s with reply := .error ⟨.invalidArgument, .address⟩ }) ∧
  (∀ (s : State) (c : Chip) (a : Int) (v : Arg), s.chip = some c → 0 ≤ a → a ≤ 255 →
    (∀ x, v = .int x → x < 0 ∨ 255 < x) →
    exec (.write (.int a) v) s = .next { s with reply := .error ⟨.invalidArgument, .value⟩ } ∧
    ∃ t, exec (.writeAddress (.int a)) s = .next t ∧
      t.chip = some { c with st := { c.st with latch := BitVec.ofNat 8 a.toNat } } ∧
      exec (.writeData v) t = .next { t with reply := .error ⟨.invalidArgument, .value⟩ })

/-- Rules R23, R67, R112: a later write to the same address replaces the earlier one entirely, so writing twice is writing the last. -/
def Obligations.LastWriteWins : Prop :=
  ∀ (s t : State) (c : Chip) (a v w : Int), s.chip = some c → c.st.regs.wf = true →
    0 ≤ a → a ≤ 255 → 0 ≤ v → v ≤ 255 → 0 ≤ w → w ≤ 255 → exec (.write (.int a) (.int v)) s = .next t →
    exec (.write (.int a) (.int w)) t = exec (.write (.int a) (.int w)) s

/-- Rule R335: two writes to different addresses leave the same registers and generator state in either order. -/
def Obligations.WritesToDifferentAddressesCommute : Prop :=
  ∀ (s : State) (c : Chip) (a v b w : Int), s.chip = some c → c.st.regs.wf = true → a ≠ b →
    0 ≤ a → a ≤ 255 → 0 ≤ v → v ≤ 255 → 0 ≤ b → b ≤ 255 → 0 ≤ w → w ≤ 255 →
    ∃ t u t' u' d d', exec (.write (.int a) (.int v)) s = .next t ∧ exec (.write (.int b) (.int w)) t = .next u ∧
      exec (.write (.int b) (.int w)) s = .next t' ∧ exec (.write (.int a) (.int v)) t' = .next u' ∧
      u.chip = some d ∧ u'.chip = some d' ∧ d = { d' with st := { d'.st with latch := d.st.latch } }

/-- Rules R23, R28, R116: only ticks and the whole-state replacements write generator state, and a tick writes no register and no
latch. -/
def Obligations.OnlyTicksAndReplacementsWriteGeneratorState : Prop :=
  ∀ (i : Instr) (s t : State) (c d : Chip), s.chip = some c → exec i s = .next t → t.chip = some d →
    ((∀ n, i ≠ .generate n) → (∀ a, i ≠ .construct a) → (∀ b, i ≠ .loadState b) → i ≠ .reset →
      d.st.ops = c.st.ops ∧ d.st.envTimer = c.st.envTimer ∧ d.st.lfo = c.st.lfo) ∧
    ((∃ n, i = .generate n) → d.st.regs = c.st.regs ∧ d.st.latch = c.st.latch)

/-- Rule R41: a write to an unmapped address is stored and changes no frame and no generator state, however many ticks follow. -/
def Obligations.UnmappedWriteChangesNoFrame : Prop :=
  ∀ (s t u w : State) (c : Chip) (a v : Int) (n : Arg), s.chip = some c → c.st.regs.wf = true →
    (a = 0x00 ∨ a = 0x01 ∨ (0x04 ≤ a ∧ a ≤ 0x0F) ∨ (0x18 ≤ a ∧ a ≤ 0x1F) ∨ (0x24 ≤ a ∧ a ≤ 0x27) ∨
      (0x2C ≤ a ∧ a ≤ 0x3F) ∨ (0x60 ≤ a ∧ a ≤ 0xFF)) → 0 ≤ v → v ≤ 255 →
    exec (.write (.int a) (.int v)) s = .next t → exec (.generate n) s = .next u → exec (.generate n) t = .next w →
    u.reply = w.reply ∧ ∃ d e, u.chip = some d ∧ w.chip = some e ∧ d.st.ops = e.st.ops ∧
      d.st.envTimer = e.st.envTimer ∧ d.st.lfo = e.st.lfo ∧ (e.st.regs.read a.toNat).toNat = v.toNat

/-- Rule R42: two bytes that differ only in the unused bits of FNUMH, KEY, CTRL, MULWS or TL give the same frames and the same generator
state, however many ticks follow; each is stored as written. -/
def Obligations.UnusedRegisterBitsAreNeverHeard : Prop :=
  ∀ (s t t' u u' : State) (c : Chip) (a v w : Int) (n : Arg), s.chip = some c → c.st.regs.wf = true →
    0 ≤ v → v ≤ 255 → 0 ≤ w → w ≤ 255 →
    ((0x14 ≤ a ∧ a ≤ 0x17 ∧ v % 64 = w % 64) ∨ (0x20 ≤ a ∧ a ≤ 0x23 ∧ v % 4 = w % 4) ∨
      (0x28 ≤ a ∧ a ≤ 0x2B ∧ v % 8 = w % 8 ∧ v / 16 % 4 = w / 16 % 4) ∨
      (0x50 ≤ a ∧ a ≤ 0x5F ∧ v % 128 = w % 128)) →
    exec (.write (.int a) (.int v)) s = .next t → exec (.write (.int a) (.int w)) s = .next t' →
    exec (.generate n) t = .next u → exec (.generate n) t' = .next u' →
    u.reply = u'.reply ∧ ∃ d d', u.chip = some d ∧ u'.chip = some d' ∧ d.st.ops = d'.st.ops ∧
      d.st.envTimer = d'.st.envTimer ∧ d.st.lfo = d'.st.lfo ∧
      (d.st.regs.read a.toNat).toNat = v.toNat ∧ (d'.st.regs.read a.toNat).toNat = w.toNat

/-! ### Sequencer (41_sequencer.md) -/

/-- Rule R130: GENERATE with a count `n ≥ 0` answers exactly `n` frames, frame `i` being that of the tick after `i` ticks, and leaves the
state after `n` ticks; a negative or non-integer count raises InvalidArgument before any tick. -/
def Obligations.GenerateRunsTheTicksInOrder : Prop :=
  (∀ (s : State) (c : Chip) (n : Int), s.chip = some c → 0 ≤ n →
    exec (.generate (.int n)) s =
      .next { s with
        chip := some { c with st := tickNext^[n.toNat] c.st }
        reply := .value (.frames ((List.range n.toNat).map fun i => tickFrame (tickNext^[i] c.st))) }) ∧
  (∀ (s : State) (c : Chip) (n : Arg), s.chip = some c → (∀ v, n = .int v → v < 0) →
    exec (.generate n) s = .next { s with reply := .error ⟨.invalidArgument, .count⟩ })

/-- Rule R130's last corner case: `generate(a)` then `generate(b)` answers the frames of `generate(a + b)`, and leaves the same chip. -/
def Obligations.GenerateSplitsAtAnyTick : Prop :=
  ∀ (s : State) (c : Chip) (a b : Int), s.chip = some c → 0 ≤ a → 0 ≤ b →
    ∃ t u w fa fb, exec (.generate (.int a)) s = .next t ∧ exec (.generate (.int b)) t = .next u ∧
      exec (.generate (.int (a + b))) s = .next w ∧
      t.reply = .value (.frames fa) ∧ u.reply = .value (.frames fb) ∧
      w.reply = .value (.frames (fa ++ fb)) ∧ w.chip = u.chip

/-- Rules R131, R140: the frames and the next mutable state are a function of the mutable state before and of `n` alone, whatever the
clock and whatever else the machine holds. -/
def Obligations.GenerateDependsOnTheMutableStateAlone : Prop :=
  ∀ (s s' t t' : State) (c c' : Chip) (n : Arg), s.chip = some c → s'.chip = some c' → c.st = c'.st →
    exec (.generate n) s = .next t → exec (.generate n) s' = .next t' →
    t.reply = t'.reply ∧ ∃ d d', t.chip = some d ∧ t'.chip = some d' ∧ d.st = d'.st

/-- Rules R136, R160: after `n` ticks the envelope timer has gone up by `n` and the LFO by `n` times its step, modulo 2^16, and the
registers and the latch are as they were. -/
def Obligations.CountersAdvanceEveryTick : Prop :=
  ∀ (s : State) (c : Chip) (n : Int), s.chip = some c → 0 ≤ n →
    ∃ t d, exec (.generate (.int n)) s = .next t ∧ t.chip = some d ∧
      d.st.envTimer.toNat = (c.st.envTimer.toNat + n.toNat) % 65536 ∧
      d.st.lfo.toNat = (c.st.lfo.toNat + n.toNat *
        (if (c.st.regs.read 0x02).toNat % 16 = 0 then 0 else 2 ^ ((c.st.regs.read 0x02).toNat % 16 - 1))) % 65536 ∧
      d.st.regs = c.st.regs ∧ d.st.latch = c.st.latch ∧ d.clock = c.clock ∧ d.family = c.family

/-- Rules R135, R153, R164: while no key edge is pending for it, an operator's phase advances by its step in every tick, modulo 2^20,
whatever its envelope segment. -/
def Obligations.PhaseAdvancesByTheStepEveryTick : Prop :=
  ∀ (s : State) (c : Chip) (n : Int) (k : Fin 8), s.chip = some c → 0 ≤ n →
    keyBit c.st.regs k = (c.st.ops.get k).kprev →
    ∃ t d, exec (.generate (.int n)) s = .next t ∧ t.chip = some d ∧
      (d.st.ops.get k).phase.toNat =
        ((c.st.ops.get k).phase.toNat + n.toNat * phaseStep c.st.regs k) % 1048576

/-- Rule R133's order: in one tick the key edges come first (a key-on restarts the phase before this tick's advance), then, on an envelope
clock only (rule R181), the envelope update, then the phase advance. On any other tick the level is kept and the segment is the one
the key edges leave: ATTACK after a key-on edge, RELEASE after a key-off edge (rules R183, R344). -/
def Obligations.TickTakesEdgesThenEnvelopeThenAdvance : Prop :=
  ∀ (m : MutState) (k : Fin 8),
    ((tickNext m).ops.get k).kprev = keyBit m.regs k ∧
    (keyBit m.regs k = true → (m.ops.get k).kprev = false →
      ((tickNext m).ops.get k).phase.toNat = phaseStep m.regs k % 1048576) ∧
    (¬ (keyBit m.regs k = true ∧ (m.ops.get k).kprev = false) →
      ((tickNext m).ops.get k).phase.toNat =
        ((m.ops.get k).phase.toNat + phaseStep m.regs k) % 1048576) ∧
    (m.envTimer.toNat % 8 = 0 →
      ((tickNext m).ops.get k).level = (egUpdate m.regs k (keyEdge m.regs k (m.ops.get k))).level ∧
      ((tickNext m).ops.get k).eg = (egUpdate m.regs k (keyEdge m.regs k (m.ops.get k))).eg) ∧
    (m.envTimer.toNat % 8 ≠ 0 →
      ((tickNext m).ops.get k).level = (m.ops.get k).level ∧
      ((tickNext m).ops.get k).eg = (keyEdge m.regs k (m.ops.get k)).eg)

/-- Rules R132, R133, R181: the frame of a tick is the mix of its channels, computed from the operators after this tick's key edges and,
on an envelope clock, its envelope update, and from the phases and the LFO before this tick's advance. -/
def Obligations.FrameIsMixedAfterEdgesAndEnvelope : Prop :=
  ∀ (s : State) (c : Chip) (b : OperatorBank), s.chip = some c →
    (∀ k, b.get k =
      if c.st.envTimer.toNat % 8 = 0 then egUpdate c.st.regs k (keyEdge c.st.regs k (c.st.ops.get k))
      else keyEdge c.st.regs k (c.st.ops.get k)) →
    ∃ t, exec (.generate (.int 1)) s = .next t ∧
      t.reply = .value (.frames [mix c.st.regs fun ch => channelOut c.st.regs b ch (lfoAm c.st.lfo c.st.regs)])

/-! ### Phase, waveform and LFO (42_phase_waveform.md) -/

/-- Rule R152: STEP is the floor of the exact product of the frequency number, the octave and the multiplier over 4, at most 1965120. -/
def Obligations.PhaseStepIsTheExactFloor : Prop :=
  ∀ (r : Memory) (k : Fin 8),
    phaseStep r k =
      ((r.read (0x14 + k.val / 2)).toNat % 8 * 256 + (r.read (0x10 + k.val / 2)).toNat) *
        2 ^ ((r.read (0x14 + k.val / 2)).toNat / 8 % 8) *
        (if (r.read (0x50 + k.val)).toNat % 16 = 0 then 1 else 2 * ((r.read (0x50 + k.val)).toNat % 16)) / 4 ∧
    phaseStep r k ≤ 1965120

/-- Rules R155, R156, R157: the 64 normative integers of the quarter-wave table, SINE as that table with its symmetries, and the four
waveforms: the sine, its positive half, its absolute value and the square. -/
def Obligations.WaveformsAreBuiltFromTheQuarterWave : Prop :=
  ((List.range 64).map quarterWave =
    [25, 75, 126, 176, 226, 275, 325, 375, 424, 473, 522, 570, 618, 666, 713, 760] ++
    [807, 852, 898, 943, 987, 1031, 1074, 1116, 1158, 1199, 1239, 1279, 1318, 1356, 1393, 1430] ++
    [1465, 1500, 1533, 1566, 1598, 1629, 1659, 1688, 1716, 1743, 1769, 1793, 1817, 1840, 1861, 1881] ++
    [1901, 1919, 1936, 1951, 1966, 1979, 1992, 2003, 2012, 2021, 2028, 2035, 2039, 2043, 2046, 2047]) ∧
  (∀ j, j < 64 →
    sine j = quarterWave j ∧ sine (64 + j) = quarterWave (63 - j) ∧
    sine (128 + j) = -(quarterWave j : Int) ∧ sine (192 + j) = -(quarterWave (63 - j) : Int)) ∧
  (∀ i, wave 0 i = sine i ∧ wave 2 i = sine (i % 128) ∧
    (i < 128 → wave 1 i = sine i ∧ wave 3 i = 2047) ∧ (128 ≤ i → wave 1 i = 0 ∧ wave 3 i = -2047))

/-- Rules R154, R158, R159, R162: an operator's output is its waveform at the top 8 bits of the phase, times the level under TL and, with
its AM bit set, under the LFO's amount, over 1024, rounded down at each stage. -/
def Obligations.OperatorOutputIsTheScaledWaveform : Prop :=
  ∀ (r : Memory) (k : Fin 8) (o : Operator) (p : BitVec 20) (am amp : Nat),
    amp = o.level.toNat * (128 - (r.read (0x58 + k.val)).toNat % 128) / 128 →
    ((r.read (0x50 + k.val)).toNat / 64 % 2 = 0 →
      opOut r k o p am =
        wave ((r.read (0x50 + k.val)).toNat / 16 % 4) (p.toNat / 4096) * amp / 1024) ∧
    ((r.read (0x50 + k.val)).toNat / 64 % 2 = 1 →
      opOut r k o p am =
        wave ((r.read (0x50 + k.val)).toNat / 16 % 4) (p.toNat / 4096) * (amp * (128 - am) / 128 : Nat) / 1024)

/-- Rule R159: an operator's output lies in -2046..2045, is 0 at level 0, and depends on the LFO only when its AM bit is set
(rule R162). -/
def Obligations.OperatorOutputIsBounded : Prop :=
  ∀ (r : Memory) (k : Fin 8) (o : Operator) (p : BitVec 20) (am : Nat),
    -2046 ≤ opOut r k o p am ∧ opOut r k o p am ≤ 2045 ∧
    (o.level = 0#10 → opOut r k o p am = 0) ∧
    ((r.read (0x50 + k.val)).toNat / 64 % 2 = 0 → opOut r k o p am = opOut r k o p 0)

/-- Rule R161: the amplitude-modulation amount is the triangle of the LFO's upper byte times the depth, over 16; it is at most 119,
and 0 at depth 0. -/
def Obligations.LfoAmountIsTheScaledTriangle : Prop :=
  ∀ (lfo : BitVec 16) (r : Memory),
    lfoAm lfo r =
      (if lfo.toNat / 256 < 128 then lfo.toNat / 256 else 255 - lfo.toNat / 256) *
        ((r.read 0x02).toNat / 16) / 16 ∧
    lfoAm lfo r ≤ 119 ∧ ((r.read 0x02).toNat / 16 = 0 → lfoAm lfo r = 0)

/-! ### Envelope (43_envelope.md) -/

/-- Rule R183: KEY_EDGE: a key-on edge enters ATTACK and zeroes the phase, a key-off edge enters RELEASE, no edge changes nothing, the level
is kept and the key bit recorded. -/
def Obligations.KeyEdgesFollowTheKeyBit : Prop :=
  ∀ (r : Memory) (k : Fin 8) (o : Operator),
    ((r.read (0x20 + k.val / 2)).toNat / 2 ^ (k.val % 2) % 2 = 1 → o.kprev = false →
      keyEdge r k o = { o with eg := .attack, phase := 0#20, kprev := true }) ∧
    ((r.read (0x20 + k.val / 2)).toNat / 2 ^ (k.val % 2) % 2 = 0 → o.kprev = true →
      keyEdge r k o = { o with eg := .release, kprev := false }) ∧
    ((r.read (0x20 + k.val / 2)).toNat / 2 ^ (k.val % 2) % 2 = o.kprev.toNat → keyEdge r k o = o)

/-- Rule R186: ATTACK raises the level by the attack rate's step, at most to 1023, and enters DECAY when it is there. -/
def Obligations.AttackRaisesTheLevel : Prop :=
  ∀ (r : Memory) (k : Fin 8) (o : Operator), o.eg = .attack →
    (egUpdate r k o).level.toNat = min 1023 (o.level.toNat + egStep ((r.read (0x40 + k.val)).toNat / 16)) ∧
    ((egUpdate r k o).level.toNat = 1023 → (egUpdate r k o).eg = .decay) ∧
    ((egUpdate r k o).level.toNat ≠ 1023 → (egUpdate r k o).eg = .attack) ∧
    (egUpdate r k o).phase = o.phase ∧ (egUpdate r k o).kprev = o.kprev

/-- Rule R187: DECAY lowers the level by the decay rate's step; at or below the target `1023 - SL * 64` it takes the target and enters
SUSTAIN. -/
def Obligations.DecayEndsAtTheSustainLevel : Prop :=
  ∀ (r : Memory) (k : Fin 8) (o : Operator) (target nl : Int), o.eg = .decay →
    target = 1023 - ((r.read (0x48 + k.val)).toNat / 16 : Nat) * 64 →
    nl = (o.level.toNat : Int) - (egStep ((r.read (0x40 + k.val)).toNat % 16) : Nat) →
    (nl ≤ target → ((egUpdate r k o).level.toNat : Int) = target ∧ (egUpdate r k o).eg = .sustain) ∧
    (target < nl → ((egUpdate r k o).level.toNat : Int) = nl ∧ (egUpdate r k o).eg = .decay) ∧
    (egUpdate r k o).phase = o.phase ∧ (egUpdate r k o).kprev = o.kprev

/-- Rules R188, R190: SUSTAIN and OFF change nothing, whatever the level. -/
def Obligations.SustainAndOffHold : Prop :=
  ∀ (r : Memory) (k : Fin 8) (o : Operator), (o.eg = .sustain ∨ o.eg = .off) → egUpdate r k o = o

/-- Rule R189: over `n` envelope clocks RELEASE lowers the level by `n` steps of the release rate, at least to 0, and is OFF once a clock
has brought it to 0; with rate 0 a non-zero level is held in RELEASE. -/
def Obligations.ReleaseFallsToOff : Prop :=
  ∀ (r : Memory) (k : Fin 8) (o : Operator) (n : Nat), o.eg = .release →
    ((egUpdate r k)^[n] o).level.toNat = o.level.toNat - n * egStep ((r.read (0x48 + k.val)).toNat % 16) ∧
    ((egUpdate r k)^[n] o).eg =
      (if n ≠ 0 ∧ o.level.toNat ≤ n * egStep ((r.read (0x48 + k.val)).toNat % 16) then .off else .release)

/-- Rule R182: the rate table EG_STEP; and a full attack from level 0 at a rate other than 0 takes `ceil_div(1023, EG_STEP[AR])` envelope
clocks: before that many it is in ATTACK, and at that many it has reached 1023 and DECAY. -/
def Obligations.FullAttackTakesTheStatedClocks : Prop :=
  (List.range 16).map egStep = [0, 1, 2, 3, 4, 6, 8, 12, 16, 24, 32, 48, 64, 128, 256, 1024] ∧
  ∀ (r : Memory) (k : Fin 8) (o : Operator) (n step : Nat), o.eg = .attack → o.level = 0#10 →
    step = egStep ((r.read (0x40 + k.val)).toNat / 16) → (r.read (0x40 + k.val)).toNat / 16 ≠ 0 →
    (n * step < 1023 → ((egUpdate r k)^[n] o).eg = .attack ∧ ((egUpdate r k)^[n] o).level.toNat = n * step) ∧
    (1023 ≤ n * step → (n - 1) * step < 1023 →
      ((egUpdate r k)^[n] o).eg = .decay ∧ ((egUpdate r k)^[n] o).level.toNat = 1023)

/-! ### Mixer and output scaler (44_mixer_output.md) -/

/-- Rules R210 to R213: with ALG 1 a channel is the sum of its operators at their own phases; with every other ALG it is its carrier at
the phase the modulator has moved, modulo 2^20; with the ranges the rules give. -/
def Obligations.ChannelOutIsFmOrSum : Prop :=
  ∀ (r : Memory) (b : OperatorBank) (ch : Fin 4) (am : Nat) (m c : Fin 8) (modulator : Int),
    m.val = 2 * ch.val → c.val = 2 * ch.val + 1 → modulator = opOut r m (b.get m) (b.get m).phase am →
    ((r.read (0x28 + ch.val)).toNat % 8 = 1 →
      channelOut r b ch am = modulator + opOut r c (b.get c) (b.get c).phase am ∧
      -4092 ≤ channelOut r b ch am ∧ channelOut r b ch am ≤ 4090) ∧
    ((r.read (0x28 + ch.val)).toNat % 8 ≠ 1 →
      (∃ p : BitVec 20, (p.toNat : Int) = ((b.get c).phase.toNat + modulator * 512) % 1048576 ∧
        channelOut r b ch am = opOut r c (b.get c) p am) ∧
      -2046 ≤ channelOut r b ch am ∧ channelOut r b ch am ≤ 2045)

/-- Rule R211: a channel whose ALG is 2 to 7 gives exactly the frames it would with ALG 0, and the stored byte keeps the written
value. -/
def Obligations.UndefinedAlgorithmSoundsAsZero : Prop :=
  ∀ (s t t' u u' : State) (c : Chip) (ch v : Int) (n : Arg), s.chip = some c → c.st.regs.wf = true →
    0 ≤ ch → ch ≤ 3 → 0 ≤ v → v ≤ 255 → 2 ≤ v % 8 →
    exec (.write (.int (0x28 + ch)) (.int v)) s = .next t →
    exec (.write (.int (0x28 + ch)) (.int (v - v % 8))) s = .next t' →
    exec (.generate n) t = .next u → exec (.generate n) t' = .next u' →
    u.reply = u'.reply ∧ ∃ d, u.chip = some d ∧ (d.st.regs.read (0x28 + ch.toNat)).toNat = v.toNat

/-- Rule R214: each output is the exact sum of the channels routed to it, times the master volume over 16, rounded down, and clamped to
16 bits. -/
def Obligations.OutputIsScaledAndClamped : Prop :=
  ∀ (r : Memory) (c : Fin 4 → Int) (l rt : Int),
    l = (∑ ch : Fin 4, if (r.read (0x28 + ch.val)).toNat / 16 % 2 = 1 then c ch else 0) →
    rt = (∑ ch : Fin 4, if (r.read (0x28 + ch.val)).toNat / 32 % 2 = 1 then c ch else 0) →
    (mix r c).out0 = max (-32768) (min 32767 (l * (r.read 0x03).toNat / 16)) ∧
    (mix r c).out1 = max (-32768) (min 32767 (rt * (r.read 0x03).toNat / 16))

/-- Rule R336: with MVOL 0 every frame is silence, whatever the operators do. -/
def Obligations.VolumeZeroIsSilence : Prop :=
  ∀ (s : State) (c : Chip) (n : Int), s.chip = some c → c.st.regs.read 0x03 = 0x00#8 → 0 ≤ n →
    ∃ t, exec (.generate (.int n)) s = .next t ∧
      t.reply = .value (.frames (List.replicate n.toNat { out0 := 0, out1 := 0 }))

/-- Rule R331: after RESET every frame is silence, until the host writes registers. -/
def Obligations.ResetIsFollowedBySilence : Prop :=
  ∀ (s t : State) (c : Chip) (n : Int), s.chip = some c → exec .reset s = .next t → 0 ≤ n →
    ∃ u, exec (.generate (.int n)) t = .next u ∧
      u.reply = .value (.frames (List.replicate n.toNat { out0 := 0, out1 := 0 }))

/-- Rule R217: with MVOL 16 a frame is the exact sum of the routed channels, within -16368..16360; with MVOL 32 it is twice it, within
-32736..32720: neither clamps. -/
def Obligations.UnityGainNeverClamps : Prop :=
  ∀ (m : MutState) (l rt : Int) (c : Fin 4 → Int),
    (∀ ch, c ch = channelOut m.regs (tickOperators m) ch (lfoAm m.lfo m.regs)) →
    l = (∑ ch : Fin 4, if (m.regs.read (0x28 + ch.val)).toNat / 16 % 2 = 1 then c ch else 0) →
    rt = (∑ ch : Fin 4, if (m.regs.read (0x28 + ch.val)).toNat / 32 % 2 = 1 then c ch else 0) →
    (-16368 ≤ l ∧ l ≤ 16360 ∧ -16368 ≤ rt ∧ rt ≤ 16360) ∧
    ((m.regs.read 0x03).toNat = 16 → tickFrame m = { out0 := l, out1 := rt }) ∧
    ((m.regs.read 0x03).toNat = 32 → tickFrame m = { out0 := 2 * l, out1 := 2 * rt })

/-! ### Snapshots (45_snapshot.md) -/

/-- Rules R230, R231: SAVE_STATE answers 333 bytes with every field of the mutable state at its offset, and changes nothing. -/
def Obligations.SaveStateLaysOutEveryField : Prop :=
  ∀ (s : State) (c : Chip), s.chip = some c → ∃ b : List Byte,
    exec .saveState s = .next { s with reply := .value (.bytes b) } ∧ b.length = 333 ∧
    b.take 8 = [0x59#8, 0x4D#8, 0x53#8, 0x53#8, 0x01#8, 0x01#8, 0x00#8, 0x00#8] ∧
    (∀ a, a < 256 → b[8 + a]? = some (c.st.regs.read a)) ∧ b[264]? = some c.st.latch ∧
    memRead b 265 2 = c.st.envTimer.toNat ∧ memRead b 267 2 = c.st.lfo.toNat ∧
    ∀ k : Fin 8,
      memRead b (269 + 8 * k.val) 4 = (c.st.ops.get k).phase.toNat ∧
      memRead b (273 + 8 * k.val) 2 = (c.st.ops.get k).level.toNat ∧
      memRead b (275 + 8 * k.val) 1 = (c.st.ops.get k).eg.code ∧
      memRead b (276 + 8 * k.val) 1 = (c.st.ops.get k).kprev.toNat

/-- Rules R233, R235, R237, R238: LOAD_STATE of a valid snapshot replaces every mutable field from its offset and keeps the clock and the
family. -/
def Obligations.LoadStateReplacesTheMutableState : Prop :=
  ∀ (s : State) (c : Chip) (b : List Byte), s.chip = some c → b.length = 333 →
    b.take 8 = [0x59#8, 0x4D#8, 0x53#8, 0x53#8, 0x01#8, 0x01#8, 0x00#8, 0x00#8] →
    (∀ k, k < 8 → memRead b (269 + 8 * k) 4 < 1048576 ∧ memRead b (273 + 8 * k) 2 ≤ 1023 ∧
      memRead b (275 + 8 * k) 1 ≤ 4 ∧ memRead b (276 + 8 * k) 1 ≤ 1) →
    ∃ m : MutState,
      exec (.loadState b) s = .next { s with chip := some { c with st := m }, reply := .nothing } ∧
      m.regs.wf = true ∧ (∀ a, a < 256 → b[8 + a]? = some (m.regs.read a)) ∧ b[264]? = some m.latch ∧
      m.envTimer.toNat = memRead b 265 2 ∧ m.lfo.toNat = memRead b 267 2 ∧
      ∀ k : Fin 8,
        (m.ops.get k).phase.toNat = memRead b (269 + 8 * k.val) 4 ∧
        (m.ops.get k).level.toNat = memRead b (273 + 8 * k.val) 2 ∧
        (m.ops.get k).eg.code = memRead b (275 + 8 * k.val) 1 ∧
        (m.ops.get k).kprev.toNat = memRead b (276 + 8 * k.val) 1

/-- Rules R234, R235, R236: a byte sequence that fails any check raises InvalidState and changes nothing; a wrong length is reported
first. -/
def Obligations.InvalidSnapshotIsRefusedUntouched : Prop :=
  ∀ (s : State) (c : Chip) (b : List Byte), s.chip = some c →
    (b.length ≠ 333 → exec (.loadState b) s = .next { s with reply := .error ⟨.invalidState, .length⟩ }) ∧
    ((b.take 8 ≠ [0x59#8, 0x4D#8, 0x53#8, 0x53#8, 0x01#8, 0x01#8, 0x00#8, 0x00#8] ∨
      ∃ k, k < 8 ∧ (1048576 ≤ memRead b (269 + 8 * k) 4 ∨ 1023 < memRead b (273 + 8 * k) 2 ∨
        4 < memRead b (275 + 8 * k) 1 ∨ 1 < memRead b (276 + 8 * k) 1)) →
      ∃ info, exec (.loadState b) s = .next { s with reply := .error ⟨.invalidState, info⟩ })

/-- Rule R239: loading the bytes just saved succeeds and leaves the chip as it was, so what is generated afterwards is the same. -/
def Obligations.LoadOfSaveKeepsTheChip : Prop :=
  ∀ (s : State) (c : Chip), s.chip = some c → c.st.regs.wf = true →
    ∃ b t u, exec .saveState s = .next t ∧ t.reply = .value (.bytes b) ∧
      exec (.loadState b) t = .next u ∧ u.reply = .nothing ∧ u.chip = some c

/-- Rule R239, the converse: saving right after a load that was accepted returns the loaded bytes exactly. -/
def Obligations.SaveOfLoadReturnsTheBytes : Prop :=
  ∀ (s t : State) (c : Chip) (b : List Byte), s.chip = some c → exec (.loadState b) s = .next t →
    t.reply = .nothing → ∃ u, exec .saveState t = .next u ∧ u.reply = .value (.bytes b)

/-- Rule R238: a snapshot loaded into chips of any clocks gives the same frames in both, and each keeps its clock. -/
def Obligations.SnapshotSoundsAlikeUnderAnyClock : Prop :=
  ∀ (s s' t t' u u' : State) (c c' : Chip) (b : List Byte) (n : Arg), s.chip = some c → s'.chip = some c' →
    exec (.loadState b) s = .next t → t.reply = .nothing → exec (.loadState b) s' = .next t' → t'.reply = .nothing →
    exec (.generate n) t = .next u → exec (.generate n) t' = .next u' →
    u.reply = u'.reply ∧ ∃ d d', u.chip = some d ∧ u'.chip = some d' ∧ d.st = d'.st ∧
      d.clock = c.clock ∧ d'.clock = c'.clock

/-! ### Pseudo-commands (30_encoding.md section 2) -/

/-- Rule R100: `setfreq` expands to two WRITEs, of FNUML at `0x10 + ch` first and of FNUMH at `0x14 + ch` then, after which the channel's
frequency number and octave (rule R34) are the ones given. -/
def Obligations.SetfreqSetsTheFrequencyFields : Prop :=
  ∀ (s : State) (c : Chip) (ch fnum block : Nat), s.chip = some c → c.st.regs.wf = true →
    ch < 4 → fnum < 2048 → block < 8 →
    expandPseudo (.setfreq ch fnum block) =
      some [.write (.int (0x10 + ch)) (.int (fnum % 256)), .write (.int (0x14 + ch)) (.int (fnum / 256 + 8 * block))] ∧
    ∃ t u d, exec (.write (.int (0x10 + ch)) (.int (fnum % 256))) s = .next t ∧
      exec (.write (.int (0x14 + ch)) (.int (fnum / 256 + 8 * block))) t = .next u ∧ u.chip = some d ∧
      (d.st.regs.read (0x14 + ch)).toNat % 8 * 256 + (d.st.regs.read (0x10 + ch)).toNat = fnum ∧
      (d.st.regs.read (0x14 + ch)).toNat / 8 % 8 = block

/-! ### The legal states -/

/-- Rules R21, R23, R46, R138, R231: every step keeps the legal states: the clock is valid, the register file canonical, and every
value the run has returned legal (frames within 16 bits, snapshots of 333 bytes, positive integers). -/
def Obligations.EveryStepKeepsTheStateLegal : Prop :=
  ∀ s t : State, s.legal = true → step s = .next t → t.legal = true

/-- The reset state is legal. Its clock 64 is the model's choice (log entry 1). -/
def Obligations.ResetStateIsLegal : Prop := State.reset.legal = true
end

