-- ==== Sys2Proof/Laws/Bank.lean ====
section
/-! SUPPORT. Laws/Bank.lean: reading one operator of a bank that a stage has updated. -/
namespace Sys2Proof.Machine

@[simp] theorem get_build (f : Fin 8 → Operator) (k : Fin 8) : (OperatorBank.build f).get k = f k := by
  fin_cases k <;> rfl

@[simp] theorem build_get (b : OperatorBank) : OperatorBank.build b.get = b := rfl

@[simp] theorem get_update (b : OperatorBank) (f : Fin 8 → Operator → Operator) (k : Fin 8) :
    (b.update f).get k = f k (b.get k) := get_build _ _

/-- Two banks with the same operators are equal. -/
theorem bank_ext {b b' : OperatorBank} (h : ∀ k, b.get k = b'.get k) : b = b' := by
  rw [← build_get b, ← build_get b', funext h]

/-- Updating a bank twice is updating it once by the composite. -/
theorem update_update (b : OperatorBank) (f g : Fin 8 → Operator → Operator) :
    (b.update f).update g = b.update fun k o => g k (f k o) := bank_ext fun k => by simp

@[simp] theorem reset_get (k : Fin 8) : OperatorBank.reset.get k = Operator.reset := by
  fin_cases k <;> rfl

/-- Codes and segments correspond (rule R44). -/
@[simp] theorem ofCode_code (e : Segment) : Segment.ofCode e.code = e := by cases e <;> rfl

theorem code_le (e : Segment) : e.code ≤ 4 := by cases e <;> decide

theorem code_ofCode {n : Nat} (h : n ≤ 4) : (Segment.ofCode n).code = n := by
  interval_cases n <;> rfl

end Sys2Proof.Machine
end

