-- ==== Sys2Proof/Laws/Bytes.lean ====
section
/-! SUPPORT. Laws/Bytes.lean: little-endian bytes, `MemRead` over packed fields, and the formats of commands. -/
namespace Sys2Proof

@[simp] theorem leBytes_length (n v : Nat) : (leBytes n v).length = n := by
  induction n generalizing v with
  | zero => rfl
  | succ n ih => simp [leBytes, ih]

/-- The value of the `n` little-endian bytes of `v` is `v` modulo `256^n`. -/
theorem leNat_leBytes (n v : Nat) : leNat (leBytes n v) = v % 256 ^ n := by
  induction n generalizing v with
  | zero => simp [leBytes, leNat, Nat.mod_one]
  | succ n ih =>
    have h : (BitVec.ofNat 8 v).toNat = v % 256 := by simp
    rw [leBytes, leNat, ih, h, pow_succ', Nat.mod_mul]

theorem leNat_lt (bs : List Byte) : leNat bs < 256 ^ bs.length := by
  induction bs with
  | nil => simp [leNat]
  | cons b bs ih =>
    have := b.isLt
    simp only [leNat, List.length_cons, pow_succ]
    omega

/-- The bytes of a value that was read from bytes are those bytes. -/
theorem leBytes_leNat (bs : List Byte) : leBytes bs.length (leNat bs) = bs := by
  induction bs with
  | nil => rfl
  | cons b bs ih =>
    have hb := b.isLt
    have h1 : (b.toNat + 256 * leNat bs) / 256 = leNat bs := by omega
    have h2 : BitVec.ofNat 8 (b.toNat + 256 * leNat bs) = b := by
      apply BitVec.eq_of_toNat_eq
      simp only [BitVec.toNat_ofNat]
      omega
    simp [leBytes, leNat, h1, h2, ih]

/-- `MemRead` of a field that stands after `pre`. -/
theorem memRead_append {pre mid post : List Byte} :
    memRead (pre ++ mid ++ post) pre.length mid.length = leNat mid := by
  simp [memRead]

/-- `MemRead` in a sequence behind `pre` is `MemRead` of the sequence. -/
theorem memRead_skip (pre bs : List Byte) (off n : Nat) :
    memRead (pre ++ bs) (pre.length + off) n = memRead bs off n := by
  have h1 : pre.length + off - pre.length = off := by omega
  rw [memRead, memRead, List.drop_append, List.drop_eq_nil_of_le (by omega), h1, List.nil_append]

/-- `MemRead` of one byte. -/
theorem memRead_one (bs : List Byte) (off : Nat) : memRead bs off 1 = ((bs[off]?).getD 0#8).toNat := by
  cases h : bs[off]? with
  | none =>
    have : bs.length ≤ off := List.getElem?_eq_none_iff.1 h
    rw [memRead, List.drop_eq_nil_of_le this]; rfl
  | some b =>
    obtain ⟨hlt, rfl⟩ := List.getElem?_eq_some_iff.1 h
    rw [memRead, List.drop_eq_getElem_cons hlt, List.take_succ_cons, List.take_zero]
    show _ + 256 * 0 = _
    simp

/-- A field within the sequence is below `256^n`. -/
theorem memRead_lt (bs : List Byte) (off n : Nat) : memRead bs off n < 256 ^ n := by
  refine lt_of_lt_of_le (leNat_lt _) (Nat.pow_le_pow_right (by omega) ?_)
  simp

/-- The bytes of a field that lies within the sequence are the sequence's own. -/
theorem leBytes_memRead {bs : List Byte} {off n : Nat} (h : off + n ≤ bs.length) :
    leBytes n (memRead bs off n) = (bs.drop off).take n := by
  have : ((bs.drop off).take n).length = n := by simp; omega
  have key := leBytes_leNat ((bs.drop off).take n)
  rw [this] at key
  exact key

/-- Rule R82's formats: an opcode has a format exactly when it is one of 0x01 to 0x0B. -/
theorem formatOf_isSome (n : Nat) : (formatOf n).isSome ↔ 1 ≤ n ∧ n ≤ 0x0B := by
  unfold formatOf
  split <;> simp_all
  omega

/-- A command is spelled exactly by the opcodes that have a format. -/
theorem commandOf_isSome (n : Nat) (cmd : List Byte) : (commandOf n cmd).isSome ↔ (formatOf n).isSome := by
  unfold commandOf formatOf
  split <;> simp_all

end Sys2Proof
end

