-- ==== Sys2Proof/Laws/Memory.lean ====
section
/-! SUPPORT. Laws/Memory.lean: the register file's operations keep its canonical form, and read what was written. -/
namespace Sys2Proof.Machine

theorem unlisted_eq : Memory.unlisted = 0#8 := rfl

@[simp] theorem read_nil (a : Nat) : Memory.read [] a = 0#8 := rfl

/-- A canonical form from a later address on is one from an earlier address on. -/
theorem wfFrom_mono {lo lo' : Nat} {m : Memory} (h : lo ≤ lo') (hm : Memory.wfFrom lo' m = true) :
    Memory.wfFrom lo m = true := by
  cases m with
  | nil => rfl
  | cons c m =>
    obtain ⟨a, v⟩ := c
    simp only [Memory.wfFrom, Bool.and_eq_true, decide_eq_true_eq] at hm ⊢
    exact ⟨⟨⟨by omega, hm.1.1.2⟩, hm.1.2⟩, hm.2⟩

theorem wfFrom_cons {lo a : Nat} {v : Byte} {m : Memory} :
    Memory.wfFrom lo ((a, v) :: m) = true ↔
      lo ≤ a ∧ a < 256 ∧ v ≠ 0#8 ∧ Memory.wfFrom (a + 1) m = true := by
  simp [Memory.wfFrom, unlisted_eq, and_assoc]

/-- Listing a byte in front keeps the canonical form. -/
theorem cons_wfFrom {lo a : Nat} {v : Byte} {m : Memory} (hlo : lo ≤ a) (ha : a < 256)
    (hm : Memory.wfFrom (a + 1) m = true) : Memory.wfFrom lo (Memory.cons a v m) = true := by
  unfold Memory.cons
  split
  · exact wfFrom_mono (by omega) hm
  · next h => exact wfFrom_cons.2 ⟨hlo, ha, h, hm⟩

/-- An address below every listed one reads as unlisted. -/
theorem read_below {lo a : Nat} {m : Memory} (hm : Memory.wfFrom lo m = true) (ha : a < lo) :
    Memory.read m a = 0#8 := by
  cases m with
  | nil => rfl
  | cons c m =>
    obtain ⟨b, v⟩ := c
    have := (wfFrom_cons.1 hm).1
    have hab : a < b := by omega
    simp [Memory.read, hab, unlisted_eq]

theorem read_cons {a b : Nat} {v : Byte} {m : Memory} (hm : Memory.wfFrom (b + 1) m = true) :
    Memory.read (Memory.cons b v m) a = if a = b then v else Memory.read m a := by
  unfold Memory.cons
  split
  · next h =>
    split
    · next hab => subst hab; rw [read_below hm (by omega), h, unlisted_eq]
    · rfl
  · simp only [Memory.read]
    by_cases hab : a < b
    · have : a ≠ b := by omega
      simp [hab, this, read_below hm (show a < b + 1 by omega), unlisted_eq]
    · simp [hab]

theorem writeAt_wfFrom {lo a : Nat} {v : Byte} {m : Memory} (hlo : lo ≤ a) (ha : a < 256)
    (hm : Memory.wfFrom lo m = true) : Memory.wfFrom lo (Memory.writeAt m a v) = true := by
  induction m generalizing lo with
  | nil => exact cons_wfFrom hlo ha rfl
  | cons c m ih =>
    obtain ⟨b, w⟩ := c
    obtain ⟨hb, hb', hw, hm'⟩ := wfFrom_cons.1 hm
    simp only [Memory.writeAt]
    split
    · next h => exact cons_wfFrom hlo ha (wfFrom_cons.2 ⟨by omega, hb', hw, hm'⟩)
    · split
      · next h => subst h; exact cons_wfFrom hlo ha hm'
      · next h1 h2 => exact wfFrom_cons.2 ⟨hb, hb', hw, ih (by omega) hm'⟩

/-- A register write keeps the canonical form. -/
theorem write_wf {m : Memory} (a v : Byte) (hm : m.wf = true) : (m.write a v).wf = true :=
  writeAt_wfFrom (Nat.zero_le _) a.isLt hm

theorem read_writeAt {lo a b : Nat} {v : Byte} {m : Memory} (hm : Memory.wfFrom lo m = true) :
    Memory.read (Memory.writeAt m a v) b = if b = a then v else Memory.read m b := by
  induction m generalizing lo with
  | nil => exact read_cons (m := []) rfl
  | cons c m ih =>
    obtain ⟨d, w⟩ := c
    obtain ⟨hd, hd', hw, hm'⟩ := wfFrom_cons.1 hm
    simp only [Memory.writeAt]
    split
    · next h => exact read_cons (wfFrom_cons.2 ⟨by omega, hd', hw, hm'⟩)
    · split
      · next h =>
        subst h
        rw [read_cons hm']
        by_cases hb : b = a
        · simp [hb]
        · by_cases hlt : b < a
          · simp [hb, Memory.read, hlt, read_below hm' (show b < a + 1 by omega), unlisted_eq]
          · simp [hb, Memory.read, hlt]
      · next h1 h2 =>
        simp only [Memory.read]
        by_cases hlt : b < d
        · have : b ≠ a := by omega
          simp [hlt, this]
        · by_cases hbd : b = d
          · have : b ≠ a := by omega
            subst hbd; simp [this]
          · simp [hlt, hbd, ih hm']

/-- Reading after a write: the byte written at its address, and every other byte as before. -/
theorem read_write {m : Memory} (hm : m.wf = true) (a v : Byte) (b : Nat) :
    (m.write a v).read b = if b = a.toNat then v else m.read b := read_writeAt hm

/-- Addresses outside space 0 read as 0. -/
theorem read_high {lo a : Nat} {m : Memory} (hm : Memory.wfFrom lo m = true) (ha : 256 ≤ a) :
    Memory.read m a = 0#8 := by
  induction m generalizing lo with
  | nil => rfl
  | cons c m ih =>
    obtain ⟨b, w⟩ := c
    obtain ⟨hb, hb', hw, hm'⟩ := wfFrom_cons.1 hm
    have h1 : ¬ a < b := by omega
    have h2 : a ≠ b := by omega
    simp [Memory.read, h1, h2, ih hm']

theorem wfFrom_ext {lo : Nat} {m m' : Memory} (hm : Memory.wfFrom lo m = true)
    (hm' : Memory.wfFrom lo m' = true) (h : ∀ a, Memory.read m a = Memory.read m' a) : m = m' := by
  induction m generalizing lo m' with
  | nil =>
    cases m' with
    | nil => rfl
    | cons c m' =>
      obtain ⟨b, w⟩ := c
      have := h b
      simp [Memory.read] at this
      exact absurd this.symm (wfFrom_cons.1 hm').2.2.1
  | cons c m ih =>
    obtain ⟨b, w⟩ := c
    obtain ⟨hb, hb', hw, hr⟩ := wfFrom_cons.1 hm
    cases m' with
    | nil =>
      have := h b
      simp [Memory.read] at this
      exact absurd this hw
    | cons c' m' =>
      obtain ⟨d, x⟩ := c'
      obtain ⟨hd, hd', hx, hr'⟩ := wfFrom_cons.1 hm'
      have e1 := h b
      have e2 := h d
      simp only [Memory.read, unlisted_eq, lt_irrefl, if_false, if_true] at e1 e2
      have hbd : b = d := by
        rcases lt_trichotomy b d with hlt | heq | hgt
        · simp [hlt] at e1; exact absurd e1 hw
        · exact heq
        · simp [hgt] at e2; exact absurd e2.symm hx
      subst hbd
      simp at e1
      subst e1
      congr 1
      refine ih hr hr' fun a => ?_
      have := h a
      simp only [Memory.read] at this
      by_cases hlt : a < b
      · rw [read_below hr (by omega), read_below hr' (by omega)]
      · by_cases hab : a = b
        · subst hab; rw [read_below hr (by omega), read_below hr' (by omega)]
        · simpa [hlt, hab] using this

/-- Two canonical register files that read alike everywhere are equal. -/
theorem memory_ext {m m' : Memory} (hm : m.wf = true) (hm' : m'.wf = true)
    (h : ∀ a, m.read a = m'.read a) : m = m' := wfFrom_ext hm hm' h

theorem ofBytes_wfFrom {lo base : Nat} {bs : List Byte} (hlo : lo ≤ base) (hb : base + bs.length ≤ 256) :
    Memory.wfFrom lo (Memory.ofBytes base bs) = true := by
  induction bs generalizing lo base with
  | nil => rfl
  | cons b bs ih =>
    simp only [List.length_cons] at hb
    exact cons_wfFrom hlo (by omega) (ih (Nat.le_refl _) (by omega))

/-- A register file loaded from at most 256 bytes is in canonical form. -/
theorem ofBytes_wf {bs : List Byte} (h : bs.length ≤ 256) : (Memory.ofBytes 0 bs).wf = true :=
  ofBytes_wfFrom (Nat.le_refl _) (by omega)

theorem read_ofBytes {base : Nat} {bs : List Byte} (hb : base + bs.length ≤ 256) (a : Nat) :
    Memory.read (Memory.ofBytes base bs) a = if a < base then 0#8 else (bs[a - base]?).getD 0#8 := by
  induction bs generalizing base with
  | nil => simp [Memory.ofBytes]
  | cons b bs ih =>
    simp only [List.length_cons] at hb
    rw [Memory.ofBytes, read_cons (ofBytes_wfFrom (Nat.le_refl _) (by omega)), ih (by omega)]
    rcases lt_trichotomy a base with h | h | h
    · have h1 : a ≠ base := by omega
      have h2 : a < base + 1 := by omega
      simp [h, h1, h2]
    · subst h; simp
    · have h1 : a ≠ base := by omega
      have h2 : ¬ a < base := by omega
      have h3 : ¬ a < base + 1 := by omega
      obtain ⟨j, rfl⟩ : ∃ j, a = base + 1 + j := ⟨a - (base + 1), by omega⟩
      have h4 : base + 1 + j - base = j + 1 := by omega
      have h5 : base + 1 + j - (base + 1) = j := by omega
      rw [if_neg h1, if_neg h2, if_neg h3, h4, h5, List.getElem?_cons_succ]

@[simp] theorem toBytes_length (m : Memory) : m.toBytes.length = 256 := by simp [Memory.toBytes]

/-- Byte `a` of the register file's bytes is the register at `a`. -/
theorem toBytes_getElem? (m : Memory) {a : Nat} (ha : a < 256) : m.toBytes[a]? = some (m.read a) := by
  simp [Memory.toBytes, ha]

/-- The register file of its own bytes is itself. -/
theorem ofBytes_toBytes {m : Memory} (hm : m.wf = true) : Memory.ofBytes 0 m.toBytes = m := by
  refine memory_ext (ofBytes_wf (by simp)) hm fun a => ?_
  rw [read_ofBytes (by simp)]
  by_cases ha : a < 256
  · simp [toBytes_getElem? m ha]
  · have : m.toBytes.length ≤ a := by simp; omega
    simp [List.getElem?_eq_none this, read_high hm (show 256 ≤ a by omega)]

end Sys2Proof.Machine
end

