-- ==== Sys2Proof/Laws/State.lean ====
section
/-! SUPPORT. Laws/State.lean: one lemma per field per update of the state, so that no proof unfolds an update. -/
namespace Sys2Proof.Machine

section
variable (s : State) (r : Reply) (c : Chip)

@[simp] theorem withReply_chip : (s.withReply r).chip = s.chip := rfl
@[simp] theorem withReply_reply : (s.withReply r).reply = r := rfl
@[simp] theorem withReply_stream : (s.withReply r).stream = s.stream := rfl
@[simp] theorem withReply_offset : (s.withReply r).offset = s.offset := rfl
@[simp] theorem withReply_results : (s.withReply r).results = s.results := rfl
@[simp] theorem withReply_status : (s.withReply r).status = s.status := rfl

@[simp] theorem withChip_chip : (s.withChip c).chip = some c := rfl
@[simp] theorem withChip_reply : (s.withChip c).reply = s.reply := rfl
@[simp] theorem withChip_stream : (s.withChip c).stream = s.stream := rfl
@[simp] theorem withChip_offset : (s.withChip c).offset = s.offset := rfl
@[simp] theorem withChip_results : (s.withChip c).results = s.results := rfl
@[simp] theorem withChip_status : (s.withChip c).status = s.status := rfl

end

section
variable (a v : Byte) (c : Chip)

@[simp] theorem latchAddress_clock : (latchAddress a c).clock = c.clock := rfl
@[simp] theorem latchAddress_family : (latchAddress a c).family = c.family := rfl
@[simp] theorem latchAddress_regs : (latchAddress a c).st.regs = c.st.regs := rfl
@[simp] theorem latchAddress_latch : (latchAddress a c).st.latch = a := rfl
@[simp] theorem latchAddress_ops : (latchAddress a c).st.ops = c.st.ops := rfl
@[simp] theorem latchAddress_envTimer : (latchAddress a c).st.envTimer = c.st.envTimer := rfl
@[simp] theorem latchAddress_lfo : (latchAddress a c).st.lfo = c.st.lfo := rfl

@[simp] theorem storeAtLatch_clock : (storeAtLatch v c).clock = c.clock := rfl
@[simp] theorem storeAtLatch_family : (storeAtLatch v c).family = c.family := rfl
@[simp] theorem storeAtLatch_regs : (storeAtLatch v c).st.regs = c.st.regs.write c.st.latch v := rfl
@[simp] theorem storeAtLatch_latch : (storeAtLatch v c).st.latch = c.st.latch := rfl
@[simp] theorem storeAtLatch_ops : (storeAtLatch v c).st.ops = c.st.ops := rfl
@[simp] theorem storeAtLatch_envTimer : (storeAtLatch v c).st.envTimer = c.st.envTimer := rfl
@[simp] theorem storeAtLatch_lfo : (storeAtLatch v c).st.lfo = c.st.lfo := rfl

end

section
variable (m : MutState)

@[simp] theorem tickNext_regs : (tickNext m).regs = m.regs := rfl
@[simp] theorem tickNext_latch : (tickNext m).latch = m.latch := rfl
@[simp] theorem tickNext_ops : (tickNext m).ops = (tickOperators m).update (advancePhase m.regs) := rfl
@[simp] theorem tickNext_lfo : (tickNext m).lfo = advanceLfo m.regs m.lfo := rfl
@[simp] theorem tickNext_envTimer : (tickNext m).envTimer = BitVec.ofNat 16 (m.envTimer.toNat + 1) := rfl

end

section
variable (r : Memory) (k : Fin 8) (o : Operator)

@[simp] theorem advancePhase_phase :
    (advancePhase r k o).phase = BitVec.ofNat 20 (o.phase.toNat + phaseStep r k) := rfl
@[simp] theorem advancePhase_level : (advancePhase r k o).level = o.level := rfl
@[simp] theorem advancePhase_eg : (advancePhase r k o).eg = o.eg := rfl
@[simp] theorem advancePhase_kprev : (advancePhase r k o).kprev = o.kprev := rfl

end

section
variable (e : Error) (s : State) (bytes : List Byte)

@[simp] theorem failRun_chip : (failRun e s).chip = s.chip := rfl
@[simp] theorem failRun_reply : (failRun e s).reply = s.reply := rfl
@[simp] theorem failRun_stream : (failRun e s).stream = s.stream := rfl
@[simp] theorem failRun_offset : (failRun e s).offset = s.offset := rfl
@[simp] theorem failRun_results : (failRun e s).results = s.results := rfl
@[simp] theorem failRun_status : (failRun e s).status = .failed e s.offset := rfl

@[simp] theorem placeBytes_chip : (placeBytes bytes s).chip = s.chip := rfl
@[simp] theorem placeBytes_reply : (placeBytes bytes s).reply = s.reply := rfl
@[simp] theorem placeBytes_stream : (placeBytes bytes s).stream = bytes ++ s.stream.drop bytes.length := rfl
@[simp] theorem placeBytes_offset : (placeBytes bytes s).offset = s.offset := rfl
@[simp] theorem placeBytes_results : (placeBytes bytes s).results = s.results := rfl
@[simp] theorem placeBytes_status : (placeBytes bytes s).status = .running := rfl

end

/-- Performing a command leaves the chip that the operation left. -/
@[simp] theorem afterCommand_chip (n : Nat) (rest : List Byte) (t : State) :
    (afterCommand n rest t).chip = t.chip := by
  unfold afterCommand; split <;> rfl

/-- Performing a command leaves the reply that the operation gave. -/
@[simp] theorem afterCommand_reply (n : Nat) (rest : List Byte) (t : State) :
    (afterCommand n rest t).reply = t.reply := by
  unfold afterCommand; split <;> simp_all

end Sys2Proof.Machine
end

