-- ==== Sys2Proof/Laws/Operands.lean ====
section
/-! SUPPORT. Laws/Operands.lean: what the argument checks accept, the ranges of the register fields, and the one
lemma per shared operation that says all it can do. -/
namespace Sys2Proof.Machine

/-! ### Arguments -/

theorem checkByte_int {v : Int} (h0 : 0 ≤ v) (h1 : v ≤ 255) :
    checkByte (.int v) = some (BitVec.ofNat 8 v.toNat) := by simp [checkByte, h0, h1]

/-- `check_addr` and `check_value` refuse exactly the non-integers and the integers outside `0..255`. -/
theorem checkByte_none {a : Arg} : checkByte a = none ↔ ∀ v, a = .int v → v < 0 ∨ 255 < v := by
  cases a with
  | int v =>
    simp only [checkByte, ite_eq_right_iff, reduceCtorEq, imp_false, Arg.int.injEq, forall_eq']
    omega
  | nonInteger => simp [checkByte]

theorem checkByte_byte (b : Byte) : checkByte (Arg.nat b.toNat) = some b := by
  have := b.isLt
  rw [Arg.nat, checkByte_int (by simp) (by simp; omega)]
  simp

theorem checkCount_int {v : Int} (h : 0 ≤ v) : checkCount (.int v) = some v.toNat := by
  simp [checkCount, h]

theorem checkCount_none {a : Arg} : checkCount a = none ↔ ∀ v, a = .int v → v < 0 := by
  cases a <;> simp [checkCount]

theorem checkClock_int {f : Family} {v : Int} (h : 1 ≤ v) : checkClock f (.int v) = some v.toNat := by
  cases f; simp [checkClock, Family.params, h]

theorem checkClock_none {f : Family} {a : Arg} : checkClock f a = none ↔ ∀ v, a = .int v → v ≤ 0 := by
  cases f
  cases a <;> simp [checkClock, Family.params]
  omega

/-! ### Fields -/

theorem bits_lt (v hi lo : Nat) : bits v hi lo < 2 ^ (hi + 1 - lo) := Nat.mod_lt _ (by positivity)

theorem field_lt (r : Memory) (a hi lo : Nat) : r.field a hi lo < 2 ^ (hi + 1 - lo) := bits_lt _ _ _

theorem fieldRate_lt (r : Memory) : fieldRate r < 16 := field_lt r _ 3 0
theorem fieldDepth_lt (r : Memory) : fieldDepth r < 16 := field_lt r _ 7 4
theorem fieldMvol_lt (r : Memory) : fieldMvol r < 256 := (r.read 0x03).isLt
theorem fieldBlock_lt (r : Memory) (ch : Nat) : fieldBlock r ch < 8 := field_lt r _ 5 3
theorem fieldAlg_lt (r : Memory) (ch : Nat) : fieldAlg r ch < 8 := field_lt r _ 2 0
theorem fieldLen_lt (r : Memory) (ch : Nat) : fieldLen r ch < 2 := field_lt r _ 4 4
theorem fieldRen_lt (r : Memory) (ch : Nat) : fieldRen r ch < 2 := field_lt r _ 5 5
theorem fieldAr_lt (r : Memory) (k : Fin 8) : fieldAr r k < 16 := field_lt r _ 7 4
theorem fieldDr_lt (r : Memory) (k : Fin 8) : fieldDr r k < 16 := field_lt r _ 3 0
theorem fieldSl_lt (r : Memory) (k : Fin 8) : fieldSl r k < 16 := field_lt r _ 7 4
theorem fieldRr_lt (r : Memory) (k : Fin 8) : fieldRr r k < 16 := field_lt r _ 3 0
theorem fieldMul_lt (r : Memory) (k : Fin 8) : fieldMul r k < 16 := field_lt r _ 3 0
theorem fieldWs_lt (r : Memory) (k : Fin 8) : fieldWs r k < 4 := field_lt r _ 5 4
theorem fieldAm_lt (r : Memory) (k : Fin 8) : fieldAm r k < 2 := field_lt r _ 6 6
theorem fieldTl_lt (r : Memory) (k : Fin 8) : fieldTl r k < 128 := field_lt r _ 6 0

theorem fieldFnum_lt (r : Memory) (ch : Nat) : fieldFnum r ch < 2048 := by
  have h1 : r.field (0x14 + ch) 2 0 < 8 := field_lt r _ 2 0
  have h2 : r.field (0x10 + ch) 7 0 < 256 := field_lt r _ 7 0
  unfold fieldFnum; omega

theorem bits_zero (hi lo : Nat) : bits 0 hi lo = 0 := by simp [bits]

/-! ### The shared operations -/

theorem onChip_none {s : State} (f : Chip → Result) (h : s.chip = none) :
    onChip s f = raise .invalidState .noInstance s := by simp [onChip, h]

theorem onChip_some {s : State} {c : Chip} (f : Chip → Result) (h : s.chip = some c) :
    onChip s f = f c := by simp [onChip, h]

/-- Everything an operation on a chip can do: without a chip it raises, with one it is the given function. -/
theorem onChip_next {s t : State} {f : Chip → Result} (h : onChip s f = .next t) :
    (s.chip = none ∧ t = s.withReply (.error ⟨.invalidState, .noInstance⟩)) ∨
    (∃ c, s.chip = some c ∧ f c = .next t) := by
  cases hc : s.chip with
  | none =>
    rw [onChip_none f hc, raise] at h
    exact .inl ⟨rfl, (Host.Outcome.next.inj h).symm⟩
  | some c =>
    rw [onChip_some f hc] at h
    exact .inr ⟨c, rfl, h⟩

theorem raise_next {kind : ErrorKind} {info : ErrorInfo} {s t : State} :
    raise kind info s = .next t ↔ t = s.withReply (.error ⟨kind, info⟩) := by
  simp [raise, eq_comm]

theorem answer_next {v : Value} {s t : State} : answer v s = .next t ↔ t = s.withReply (.value v) := by
  simp [answer, eq_comm]

theorem finishWith_next {c : Chip} {s t : State} :
    finishWith c s = .next t ↔ t = (s.withChip c).withReply .nothing := by
  simp [finishWith, eq_comm]

end Sys2Proof.Machine
end

