-- ==== Sys2Proof/Laws/PerInstr.lean ====
section
/-! SUPPORT. Laws/PerInstr.lean: the statements made of every operation as syntax, one lemma per constructor. -/

/-- Rule R82's length column: the encoding of an operation has the length of its format. -/
def Sys2Proof.Laws.EncodedLength.Statement (i : Sys2Proof.Instr) : Prop :=
  (Sys2Proof.encode i).length = i.byteLength

namespace Sys2Proof.Laws.EncodedLength

theorem construct (clock : Arg) : Statement (.construct clock) := by simp [Statement, encode, Instr.byteLength]
theorem write (address value : Arg) : Statement (.write address value) := by
  simp [Statement, encode, Instr.byteLength]
theorem writeAddress (addr : Arg) : Statement (.writeAddress addr) := by simp [Statement, encode, Instr.byteLength]
theorem writeData (value : Arg) : Statement (.writeData value) := by simp [Statement, encode, Instr.byteLength]
theorem generate (n : Arg) : Statement (.generate n) := by simp [Statement, encode, Instr.byteLength]
theorem saveState : Statement .saveState := rfl
theorem loadState (payload : List Byte) : Statement (.loadState payload) := by
  simp [Statement, encode, Instr.byteLength]; omega
theorem reset : Statement .reset := rfl
theorem readClock : Statement .readClock := rfl
theorem readSampleRate : Statement .readSampleRate := rfl
theorem readOutputs : Statement .readOutputs := rfl

end Sys2Proof.Laws.EncodedLength
end

