-- ==== Sys2Proof/Laws/Tick.lean ====
section
/-! SUPPORT. Laws/Tick.lean: what each stage of a tick does to one operator, and the run of several ticks. -/
namespace Sys2Proof.Machine

/-! ### Key edges -/

section
variable (r : Memory) (k : Fin 8) (o : Operator)

@[simp] theorem keyEdge_kprev : (keyEdge r k o).kprev = keyBit r k := by
  unfold keyEdge; split <;> simp_all

@[simp] theorem keyEdge_level : (keyEdge r k o).level = o.level := by
  unfold keyEdge; split <;> rfl

/-- The only change of segment and phase at a key edge: ATTACK and phase 0 on key-on, RELEASE on key-off. -/
theorem keyEdge_cases :
    (keyBit r k = o.kprev ∧ keyEdge r k o = o) ∨
    (keyBit r k = true ∧ o.kprev = false ∧ keyEdge r k o = { o with eg := .attack, phase := 0#20, kprev := true }) ∨
    (keyBit r k = false ∧ o.kprev = true ∧ keyEdge r k o = { o with eg := .release, kprev := false }) := by
  unfold keyEdge; split <;> simp_all

/-! ### Envelope update -/

@[simp] theorem egUpdate_phase : (egUpdate r k o).phase = o.phase := by
  unfold egUpdate egAttack egDecay egRelease
  split <;> first | rfl | (dsimp only; split <;> rfl)

@[simp] theorem egUpdate_kprev : (egUpdate r k o).kprev = o.kprev := by
  unfold egUpdate egAttack egDecay egRelease
  split <;> first | rfl | (dsimp only; split <;> rfl)

end

/-! ### A tick -/

/-- Operator `k` as the tick's output sees it. -/
theorem get_tickOperators (m : MutState) (k : Fin 8) :
    (tickOperators m).get k =
      if envelopeClock m.envTimer then egUpdate m.regs k (keyEdge m.regs k (m.ops.get k))
      else keyEdge m.regs k (m.ops.get k) := by
  unfold tickOperators
  split <;> simp

@[simp] theorem tickOperators_kprev (m : MutState) (k : Fin 8) :
    ((tickOperators m).get k).kprev = keyBit m.regs k := by
  rw [get_tickOperators]; split <;> simp

/-- A key edge is the only thing before the advance that moves a phase. -/
theorem tickOperators_phase (m : MutState) (k : Fin 8) :
    ((tickOperators m).get k).phase = (keyEdge m.regs k (m.ops.get k)).phase := by
  rw [get_tickOperators]; split <;> simp

/-! ### Several ticks -/

@[simp] theorem runTicks_zero (m : MutState) : runTicks 0 m = ([], m) := rfl

theorem runTicks_succ (n : Nat) (m : MutState) :
    runTicks (n + 1) m = (tickFrame m :: (runTicks n (tickNext m)).1, (runTicks n (tickNext m)).2) := rfl

@[simp] theorem runTicks_length (n : Nat) (m : MutState) : (runTicks n m).1.length = n := by
  induction n generalizing m with
  | zero => rfl
  | succ n ih => simp [runTicks_succ, ih]

@[simp] theorem runTicks_regs (n : Nat) (m : MutState) : (runTicks n m).2.regs = m.regs := by
  induction n generalizing m with
  | zero => rfl
  | succ n ih => simp [runTicks_succ, ih]

@[simp] theorem runTicks_latch (n : Nat) (m : MutState) : (runTicks n m).2.latch = m.latch := by
  induction n generalizing m with
  | zero => rfl
  | succ n ih => simp [runTicks_succ, ih]

/-- A property that a tick keeps holds after any number of them. -/
theorem runTicks_keeps {P : MutState → Prop} (h : ∀ m, P m → P (tickNext m)) (n : Nat) {m : MutState}
    (hm : P m) : P (runTicks n m).2 := by
  induction n generalizing m with
  | zero => exact hm
  | succ n ih => exact ih (h m hm)

/-- A property of every frame that a tick can give from a state with `P`, where ticks keep `P`. -/
theorem runTicks_frames {P : MutState → Prop} {Q : Frame → Prop} (h : ∀ m, P m → P (tickNext m))
    (hq : ∀ m, P m → Q (tickFrame m)) (n : Nat) {m : MutState} (hm : P m) :
    ∀ f ∈ (runTicks n m).1, Q f := by
  induction n generalizing m with
  | zero => simp
  | succ n ih =>
    simp only [runTicks_succ, List.mem_cons]
    rintro f (rfl | hf)
    · exact hq m hm
    · exact ih (h m hm) f hf

end Sys2Proof.Machine
end

