-- ==== Sys2Proof/Tests/Slice0.lean ====
section
/-! SUPPORT. Tests/Slice0.lean: this model's own tests. Expected values come from 95_test_vectors.md (each comment names the
vector) or from the rule cited; the last section holds, for each obligation with hypotheses, a state and operands that meet them. -/
namespace Sys2Proof.Tests
open Sys2Proof Sys2Proof.Machine

/-! ### Well-formed operations: one ill-formed term for each check -/

theorem test_illformed_construct_too_large : (Instr.construct (.int 4294967296)).wellFormed = false := by decide
theorem test_illformed_construct_negative : (Instr.construct (.int (-1))).wellFormed = false := by decide
theorem test_illformed_construct_not_integer : (Instr.construct .nonInteger).wellFormed = false := by decide
theorem test_illformed_write_address : (Instr.write (.int 256) (.int 0)).wellFormed = false := by decide
theorem test_illformed_write_value : (Instr.write (.int 0) (.int 256)).wellFormed = false := by decide
theorem test_illformed_write_negative : (Instr.write (.int 0) (.int (-1))).wellFormed = false := by decide
theorem test_illformed_writeAddress : (Instr.writeAddress (.int 256)).wellFormed = false := by decide
theorem test_illformed_writeData : (Instr.writeData (.int 256)).wellFormed = false := by decide
theorem test_illformed_generate_too_large : (Instr.generate (.int 4294967296)).wellFormed = false := by decide
theorem test_illformed_generate_negative : (Instr.generate (.int (-1))).wellFormed = false := by decide
theorem test_illformed_loadState : (Instr.loadState (List.replicate 65536 0#8)).wellFormed = false := by
  simp only [Instr.wellFormed, List.length_replicate]; decide
theorem test_wellformed_limits :
    (Instr.construct (.int 4294967295)).wellFormed = true ∧ (Instr.write (.int 255) (.int 255)).wellFormed = true ∧
    (Instr.generate (.int 0)).wellFormed = true := by decide

/-! ### Decoding: every constructor from a word written out from rules R83 to R93 -/

/-- R83: the first five bytes of P1. -/
theorem test_decode_construct :
    decodeOne [0x01#8, 0x99#8, 0x9e#8, 0x36#8, 0x00#8] = .command (.construct (.int 3579545)) 5 [] := by decide
/-- R84: the first WRITE of P1. -/
theorem test_decode_write :
    decodeOne [0x02#8, 0x03#8, 0x10#8, 0x02#8] = .command (.write (.int 0x03) (.int 16)) 3 [0x02#8] := by decide
theorem test_decode_writeAddress : decodeOne [0x03#8, 0xff#8] = .command (.writeAddress (.int 255)) 2 [] := by decide
theorem test_decode_writeData : decodeOne [0x04#8, 0x10#8] = .command (.writeData (.int 16)) 2 [] := by decide
theorem test_decode_generate :
    decodeOne [0x05#8, 0x00#8, 0x01#8, 0x00#8, 0x80#8] = .command (.generate (.int 2147483904)) 5 [] := by decide
theorem test_decode_saveState : decodeOne [0x06#8] = .command .saveState 1 [] := by decide
/-- R89: `L = 0x0002`, two payload bytes, then a RESET. -/
theorem test_decode_loadState :
    decodeOne [0x07#8, 0x02#8, 0x00#8, 0x12#8, 0x34#8, 0x08#8] =
      .command (.loadState [0x12#8, 0x34#8]) 5 [0x08#8] := by decide
theorem test_decode_reset : decodeOne [0x08#8] = .command .reset 1 [] := by decide
theorem test_decode_readClock : decodeOne [0x09#8] = .command .readClock 1 [] := by decide
theorem test_decode_readSampleRate : decodeOne [0x0A#8] = .command .readSampleRate 1 [] := by decide
theorem test_decode_readOutputs : decodeOne [0x0B#8] = .command .readOutputs 1 [] := by decide
theorem test_decode_reserved : decodeOne [0x00#8] = .reserved ∧ decodeOne [0x0C#8, 0x00#8] = .reserved ∧
    decodeOne [0xff#8] = .reserved := by decide
/-- R96's three examples. -/
theorem test_decode_truncated : decodeOne [0x02#8, 0x03#8] = .truncated ∧
    decodeOne [0x07#8, 0x05#8, 0x00#8, 0x01#8, 0x02#8] = .truncated ∧ decodeOne [0x07#8, 0x05#8] = .truncated := by decide
/-- V-ENC-10: `L = 0` decodes. -/
theorem test_decode_empty_payload : decodeOne [0x07#8, 0x00#8, 0x00#8] = .command (.loadState []) 3 [] := by decide
/-- V-ENC-4: the commands up to the reserved byte at offset 11. -/
theorem test_decode_stream :
    decodeStream [0x01#8, 0x01#8, 0x00#8, 0x00#8, 0x00#8, 0x0a#8, 0x03#8, 0x03#8, 0x04#8, 0x10#8, 0x0b#8, 0x0c#8, 0x02#8] =
      ([(0, .construct (.int 1)), (5, .readSampleRate), (6, .writeAddress (.int 3)), (8, .writeData (.int 16)),
        (10, .readOutputs)], some (.reserved 11)) := by decide
/-- P5's writes, in their encoding. -/
theorem test_encode_writes :
    [Instr.writeAddress (.int 2), .writeData (.int 0xFF), .write (.int 0x2A) (.int 0x21), .generate (.int 6),
      .saveState].flatMap encode =
    [0x03#8, 0x02#8, 0x04#8, 0xff#8, 0x02#8, 0x2a#8, 0x21#8, 0x05#8, 0x06#8, 0x00#8, 0x00#8, 0x00#8, 0x06#8] := by decide
/-- P2's second CONSTRUCT, in its encoding. -/
theorem test_encode_construct :
    encode (.construct (.int 1000000)) = [0x01#8, 0x40#8, 0x42#8, 0x0f#8, 0x00#8] := by decide
theorem test_table_word : decodeTableWord 24 0x100302 = some (.write (.int 0x03) (.int 0x10)) ∧
    decodeTableWord 8 0x05 = some (.generate (.int 0)) ∧ decodeTableWord 8 0x0C = none := by decide
/-- R99. -/
theorem test_assembly_text : assemblyText "s1" (.write (.int 3) (.int 16)) = "write 3, 16" ∧
    assemblyText "s1" (.loadState []) = "load_state s1" := by decide
/-- R100: P1's `setfreq 0, 1031, 4`. -/
theorem test_pseudo_setfreq : expandPseudo (.setfreq 0 1031 4) =
    some [.write (.int 0x10) (.int 0x07), .write (.int 0x14) (.int 0x24)] := by decide
/-- R100: `opctl 5, 0, 3, 1, 0` (P5's operator 5), and an operand out of range. -/
theorem test_pseudo_opctl : expandPseudo (.opctl 5 0 3 1 0) =
    some [.write (.int 0x55) (.int 0x70), .write (.int 0x5D) (.int 0)] ∧ expandPseudo (.keyon 4 0) = none := by decide

/-- R99: lines of P1 and P2, and their encoding. -/
theorem test_assemble :
    (assemble [("s1", [0xaa#8])] ["construct 3579545", "write 0x03, 16        ; volume 16 (unity)", "setfreq 0, 1031, 4", "",
      "s1 = save_state       ; V-SNAP-2", "load_state s1", "clock"]).map (fun p => p.flatMap encode) =
    some [0x01#8, 0x99#8, 0x9e#8, 0x36#8, 0x00#8, 0x02#8, 0x03#8, 0x10#8, 0x02#8, 0x10#8, 0x07#8, 0x02#8, 0x14#8, 0x24#8,
      0x06#8, 0x07#8, 0x01#8, 0x00#8, 0xaa#8, 0x09#8] := by decide +kernel
/-- V-SEQ-3, V-CTL-2, V-REG-6: a minus sign (log entry 16), which `assemblyText` writes and the reader reads back. -/
theorem test_assemble_minus_sign : assemble [] ["generate -1", "construct -5", "write -1, 0"] =
    some [.generate (.int (-1)), .construct (.int (-5)), .write (.int (-1)) (.int 0)] ∧
    assembleLine [] (assemblyText "" (.generate (.int (-1)))) = some (none, [.generate (.int (-1))]) ∧
    assembleLine [] "construct 1.5" = none ∧ assembleLine [] "generate +1" = none ∧ assembleLine [] "generate -" = none ∧
    assembleLine [] "volume -1" = none := by decide +kernel
theorem test_assemble_errors : assembleLine [] "write 3" = none ∧ assembleLine [] "load_state s1" = none ∧
    assembleLine [] "keyon 4, 0" = none ∧ assembleLine [] "write 0x, 1" = none := by decide +kernel

/-! ### Parameters and codes -/

/-- Rule R7's parameters agree with the types and functions that hold them. -/
theorem test_parameters_agree :
    let p := Family.ref.params
    p.phaseBits = 20 ∧ p.envBits = 10 ∧ p.envTimerBits = 16 ∧ p.lfoBits = 16 ∧ p.regBits = 8 ∧ p.nch * p.nop = 8 ∧
    p.naddr = (List.range 256).length ∧ 2 ^ p.waveIndexBits = waveIndex (BitVec.allOnes 20) + 1 ∧
    (p.waveAmp : Int) = sine 63 ∧ p.snapLen = (saveBytes .ref MutState.reset).length := by decide +kernel
theorem test_error_codes : [ErrorKind.invalidArgument, .invalidState, .unsupported].map ErrorKind.code = [1, 2, 3] := by decide
theorem test_segment_codes : [0, 1, 2, 3, 4].map Segment.ofCode = [.off, .attack, .decay, .sustain, .release] ∧
    [Segment.off, .attack, .decay, .sustain, .release].map Segment.code = [0, 1, 2, 3, 4] := by decide
theorem test_reset_registers_are_canonical : MutState.reset.regs.wf = true := by decide

/-! ### Building small states -/

/-- An operator. -/
def osc (phase level : Nat) (eg : Segment) (kprev : Bool) : Operator :=
  { phase := BitVec.ofNat 20 phase, level := BitVec.ofNat 10 level, eg := eg, kprev := kprev }

/-- The reset mutable state with the given registers (in rising order), envelope timer and LFO. -/
def mutable (regs : Memory) (ops : OperatorBank) (envTimer lfo : Nat) : MutState :=
  { regs := regs, latch := 0x00#8, ops := ops, envTimer := BitVec.ofNat 16 envTimer, lfo := BitVec.ofNat 16 lfo }

/-- A machine whose chip has this clock and mutable state. -/
def machine (clock : Nat) (m : MutState) : State :=
  { State.reset with chip := some { clock := clock, family := .ref, st := m } }

/-- A chip of clock 64 with these registers, all else as after reset. -/
def withRegs (regs : Memory) : State := machine 64 (mutable regs OperatorBank.reset 0 0)

/-- The state after an operation (every operation gives one). -/
def after (i : Instr) (s : State) : State :=
  match exec i s with
  | .next t => t
  | .fault _ => s
  | .refused _ => s

/-- The registers, latch and generator state of the chip after an operation. -/
def mutAfter (i : Instr) (s : State) : Option MutState := (after i s).chip.map Chip.st

/-- The state after a step (of a run that has not returned). -/
def afterStep (s : State) : State :=
  match step s with
  | .next t => t
  | .fault _ => s
  | .refused _ => s

/-- A snapshot: V-SNAP-1 with the byte at each listed offset replaced. -/
def snapWith (changes : List (Nat × Byte)) : List Byte :=
  changes.foldl (fun b ov => b.set ov.1 ov.2)
    ([0x59#8, 0x4d#8, 0x53#8, 0x53#8, 0x01#8, 0x01#8, 0x00#8, 0x00#8] ++ List.replicate 325 0x00#8)

/-! ### Construction, properties and reset -/

/-- V-CTL-4. -/
theorem test_construct : (after (.construct (.int 3579545)) (runStart [])).chip =
    some { clock := 3579545, family := .ref, st := MutState.reset } := by decide
/-- V-CTL-2: no chip is made; a chip there was stays (R269). -/
theorem test_construct_invalid : after (.construct (.int 0)) (runStart []) =
    { runStart [] with reply := .error ⟨.invalidArgument, .clock⟩ } ∧
    after (.construct .nonInteger) State.reset = { State.reset with reply := .error ⟨.invalidArgument, .clock⟩ } := by decide
/-- V-CTL-1, the whole row. -/
theorem test_sample_rate : [1, 63, 64, 65, 128, 3579545, 4000000, 4294967295].map
      (fun clock => (after .readSampleRate (machine clock MutState.reset)).reply) =
    [1, 1, 1, 2, 2, 55931, 62500, 67108864].map (fun q => .value (.integer q)) := by decide
/-- V-CTL-3, V-CTL-4. -/
theorem test_read_properties : (after .readOutputs (machine 3579545 MutState.reset)).reply = .value (.integer 2) ∧
    (after .readClock (machine 3579545 MutState.reset)).reply = .value (.integer 3579545) := by decide
/-- V-CTL-5. -/
theorem test_reset : (after .reset (machine 3579545
      (mutable [(0x03, 0x10#8), (0x20, 0x02#8)] { OperatorBank.reset with op1 := osc 98976 1023 .sustain true } 12 7))).chip =
    some { clock := 3579545, family := .ref, st := MutState.reset } := by decide

/-! ### Register interface -/

/-- V-REG-1: generator state is unchanged until the next tick. -/
theorem test_write : mutAfter (.write (.int 0x20) (.int 0x02)) State.reset =
    some { MutState.reset with regs := [(0x20, 0x02#8)], latch := 0x20#8 } := by decide
/-- V-REG-7, V-REG-6: the address is checked first. -/
theorem test_write_out_of_range : after (.write (.int 300) (.int 300)) State.reset =
    { State.reset with reply := .error ⟨.invalidArgument, .address⟩ } ∧
    after (.write (.int 0) (.int 256)) State.reset =
    { State.reset with reply := .error ⟨.invalidArgument, .value⟩ } := by decide
/-- R111's example. -/
theorem test_writeAddress : mutAfter (.writeAddress (.int 0x03)) State.reset =
    some { MutState.reset with latch := 0x03#8 } := by decide
/-- V-REG-9. -/
theorem test_writeAddress_out_of_range : after (.writeAddress (.int 256)) State.reset =
    { State.reset with reply := .error ⟨.invalidArgument, .address⟩ } := by decide
/-- V-REG-2's second `write_data`; the latch stays. -/
theorem test_writeData : mutAfter (.writeData (.int 0x20))
      (machine 64 { MutState.reset with regs := [(0x03, 0x10#8)], latch := 0x03#8 }) =
    some { MutState.reset with regs := [(0x03, 0x20#8)], latch := 0x03#8 } := by decide
/-- V-REG-8's `write_data 300`. -/
theorem test_writeData_out_of_range : after (.writeData (.int 300)) State.reset =
    { State.reset with reply := .error ⟨.invalidArgument, .value⟩ } := by decide
/-- Writing what an unlisted register reads as removes its entry. -/
theorem test_memory_stays_canonical :
    Memory.write [(0x03, 0x10#8), (0x20, 0x02#8)] 0x03#8 0x00#8 = [(0x20, 0x02#8)] ∧
    Memory.wf [(0x03, 0x00#8)] = false ∧ Memory.wf [(4, 1#8), (3, 1#8)] = false ∧ Memory.wf [(256, 1#8)] = false := by decide

/-! ### Phase, waveform and LFO -/

/-- V-PH-1. -/
theorem test_phase_step :
    [(0x07, 0x24, 1), (0x07, 0x24, 0), (1, 0, 0), (1, 0, 2), (3, 0, 1), (0x00, 0x1A, 1), (0xFF, 0x07, 0), (1, 0x38, 15),
      (0x00, 0x3C, 8), (0xFF, 0x3F, 15), (0, 0x38, 15)].map
      (fun (f : Nat × Nat × Nat) => phaseStep
        (((Memory.writeAt [] 0x10 (BitVec.ofNat 8 f.1)).writeAt 0x14 (BitVec.ofNat 8 f.2.1)).writeAt 0x50 (BitVec.ofNat 8 f.2.2)) 0) =
    [8248, 4124, 0, 1, 1, 2048, 511, 960, 524288, 1965120, 0] := by decide
/-- V-PH-2: the wrap of the phase (step 8248 from 1048000; step 1965120 from 916544). -/
theorem test_phase_wraps :
    (advancePhase [(0x10, 0x07#8), (0x14, 0x24#8), (0x50, 1#8)] 0 (osc 1048000 0 .off false)).phase.toNat = 7672 ∧
    (advancePhase [(0x10, 0xFF#8), (0x14, 0x3F#8), (0x50, 15#8)] 0 (osc 916544 0 .off false)).phase.toNat = 784512 := by decide
/-- V-PH-3. -/
theorem test_sine : [0, 1, 63, 64, 65, 127, 128, 129, 191, 192, 255].map sine =
    [25, 75, 2047, 2047, 2046, 25, -25, -75, -2047, -2047, -25] := by decide
/-- V-PH-4. -/
theorem test_wave : [0, 1, 2, 3].map (fun ws => [0, 64, 127, 128, 200, 255].map (wave ws)) =
    [[25, 2047, 25, -25, -2003, -25], [25, 2047, 25, 0, 0, 0], [25, 2047, 25, 25, 2003, 25],
     [2047, 2047, 2047, -2047, -2047, -2047]] := by decide
/-- V-PH-5. -/
theorem test_amplitude : [(1023, 0#8), (1023, 64#8), (1023, 127#8), (512, 1#8), (1, 0#8), (0, 0#8)].map
      (fun (f : Nat × Byte) => amplitude (Memory.writeAt [] 0x58 f.2) 0 (osc 0 f.1 .sustain true)) = [1023, 511, 7, 508, 1, 0] := by
  decide
/-- V-PH-6, through the square wave and the sine: rounding is toward minus infinity. -/
theorem test_output_rounds_down :
    opOut [(0x50, 0x30#8)] 0 (osc 0 1023 .sustain true) 0#20 0 = 2045 ∧
    opOut [(0x50, 0x30#8)] 0 (osc 0 1023 .sustain true) 0x80000#20 0 = -2046 ∧
    opOut [] 0 (osc 0 1 .sustain true) 0#20 0 = 0 ∧ opOut [] 0 (osc 0 1 .sustain true) 0x80000#20 0 = -1 := by decide
/-- V-PH-7. -/
theorem test_lfo_amount :
    [(0x0000, 0xF0#8), (0x00FF, 0xF0#8), (0x0100, 0xF0#8), (0x4000, 0x80#8), (0x7F00, 0xF0#8), (0x8000, 0xF0#8),
      (0xFF00, 0xF0#8), (0x7F00, 0x10#8), (0x7F00, 0x0F#8)].map
      (fun (f : Nat × Byte) => lfoAm (BitVec.ofNat 16 f.1) (Memory.writeAt [] 0x02 f.2)) =
    [0, 0, 0, 32, 119, 119, 0, 7, 0] := by decide

/-! ### Envelope: `(level, segment)` of operator 1 after each of the first envelope clocks -/

/-- `n` envelope clocks of operator 1 with the key held. -/
def clocks (r : Memory) (level : Nat) (eg : Segment) (n : Nat) : Nat × Segment :=
  let o := n.repeat (egUpdate r 1) (osc 0 level eg true)
  (o.level.toNat, o.eg)

/-- V-EG-1, V-EG-4, V-EG-5. -/
theorem test_attack : [1, 2, 3].map (clocks [(0x41, 0x80#8)] 1000 .attack) = [(1016, .attack), (1023, .decay), (1023, .sustain)] ∧
    clocks [] 1023 .attack 1 = (1023, .decay) ∧ clocks [] 500 .attack 2 = (500, .attack) := by decide
/-- V-EG-6, V-EG-9, V-EG-10, V-EG-11. -/
theorem test_decay : clocks [(0x41, 0x0D#8), (0x49, 0x20#8)] 1023 .decay 1 = (895, .sustain) ∧
    clocks [(0x41, 0x01#8), (0x49, 0x10#8)] 961 .decay 1 = (960, .decay) ∧
    clocks [(0x41, 0x01#8), (0x49, 0x10#8)] 960 .decay 1 = (959, .sustain) ∧
    clocks [(0x41, 0x05#8)] 1023 .decay 1 = (1023, .sustain) ∧
    clocks [(0x41, 0x01#8), (0x49, 0x20#8)] 500 .decay 1 = (895, .sustain) := by decide
/-- V-EG-12, V-EG-13 (its first and last clocks), V-EG-14. -/
theorem test_sustain_and_release : clocks [(0x49, 0xFF#8)] 895 .sustain 2 = (895, .sustain) ∧
    [1, 13, 14, 15].map (clocks [(0x49, 0x0C#8)] 895 .release) = [(831, .release), (63, .release), (0, .off), (0, .off)] ∧
    clocks [] 500 .release 3 = (500, .release) := by decide
/-- V-EG-3, V-EG-15: the largest rate. -/
theorem test_rate_fifteen : clocks [(0x41, 0xF0#8)] 0 .attack 1 = (1023, .decay) ∧
    clocks [(0x49, 0x0F#8)] 1023 .release 1 = (0, .off) := by decide
/-- R183's example, and a key-off edge (R185). -/
theorem test_key_edges : keyEdge [(0x20, 0x02#8)] 1 (osc 12345 400 .release false) = osc 0 400 .attack true ∧
    keyEdge [(0x20, 0x02#8)] 0 (osc 5 0 .off false) = osc 5 0 .off false ∧
    keyEdge [] 1 (osc 12345 300 .attack true) = osc 12345 300 .release false := by decide

/-! ### Generate -/

/-- The chip of a mixer vector: an operator of the given phase and level, sustaining, or at reset. -/
def mixChip (regs : Memory) (ops : OperatorBank) (lfo : Nat) : State := machine 64 (mutable regs ops 1 lfo)

/-- P1's twelve frames, from the state after its writes. -/
theorem test_generate_tone :
    (after (.generate (.int 12)) (withRegs [(0x03, 0x10#8), (0x10, 0x07#8), (0x14, 0x24#8), (0x20, 0x02#8), (0x28, 0x30#8),
      (0x41, 0xF0#8), (0x51, 0x01#8)])).reply =
    .value (.frames ([24, 125, 225, 324, 423, 521, 617, 712, 806, 897, 986, 1072].map fun x => ⟨x, x⟩)) := by decide +kernel
/-- P1's end state. -/
theorem test_generate_end_state :
    (mutAfter (.generate (.int 12)) (withRegs [(0x03, 0x10#8), (0x10, 0x07#8), (0x14, 0x24#8), (0x20, 0x02#8), (0x28, 0x30#8),
      (0x41, 0xF0#8), (0x51, 0x01#8)])).map (fun m => (m.ops, m.envTimer, m.lfo)) =
    some ({ OperatorBank.reset with op0 := osc 49488 0 .off false, op1 := osc 98976 1023 .sustain true }, 12#16, 0#16) := by
  decide +kernel
/-- V-SEQ-2, V-SEQ-3. -/
theorem test_generate_none : after (.generate (.int 0)) State.reset = { State.reset with reply := .value (.frames []) } ∧
    after (.generate (.int (-1))) State.reset = { State.reset with reply := .error ⟨.invalidArgument, .count⟩ } := by decide
/-- V-SEQ-5: the envelope timer wraps. -/
theorem test_generate_timer_wraps :
    (mutAfter (.generate (.int 2)) (machine 64 { MutState.reset with envTimer := 65535#16 })).map MutState.envTimer = some 1#16 := by
  decide +kernel
/-- V-MIX-1, V-MIX-2, V-MIX-3: frequency modulation, and an undefined algorithm. -/
theorem test_mix_fm :
    (after (.generate (.int 1)) (mixChip [(0x03, 16#8), (0x28, 0x30#8)]
      { OperatorBank.reset with op0 := osc 0x80000 1 .sustain false, op1 := osc 0 1023 .sustain false } 0)).reply =
      .value (.frames [⟨-25, -25⟩]) ∧
    (after (.generate (.int 1)) (mixChip [(0x03, 16#8), (0x28, 0x35#8)]
      { OperatorBank.reset with op0 := osc 0 1023 .sustain false, op1 := osc 0 1023 .sustain false } 0)).reply =
      .value (.frames [⟨175, 175⟩]) := by decide +kernel
/-- V-MIX-6, V-MIX-7: both clamps. -/
theorem test_mix_clamps :
    [(0, 32767), (0x80000, -32768)].map (fun (f : Nat × Int) =>
      (after (.generate (.int 1)) (mixChip [(0x03, 255#8), (0x28, 0x31#8), (0x50, 0x30#8), (0x51, 0x30#8)]
        { OperatorBank.reset with op0 := osc f.1 1023 .sustain false, op1 := osc f.1 1023 .sustain false } 0)).reply ==
      .value (.frames [⟨f.2, f.2⟩])) = [true, true] := by decide +kernel
/-- V-MIX-14: routing. -/
theorem test_mix_routes :
    (after (.generate (.int 1)) (mixChip [(0x03, 16#8), (0x28, 0x10#8), (0x29, 0x20#8), (0x2A, 0x30#8)]
      { OperatorBank.reset with op1 := osc 0 1023 .sustain false, op3 := osc 0x40000 1023 .sustain false,
                                op5 := osc 0 512 .sustain false } 0)).reply =
      .value (.frames [⟨36, 2057⟩]) := by decide +kernel
/-- V-MIX-19: the LFO's amplitude modulation. -/
theorem test_mix_lfo :
    (after (.generate (.int 6)) (mixChip [(0x02, 0xFF#8), (0x03, 16#8), (0x28, 0x30#8), (0x51, 0x70#8)]
      { OperatorBank.reset with op1 := osc 0 1023 .sustain false } 0)).reply =
    .value (.frames ([2045, 1085, 141, 1101, 2045, 1085].map fun x => ⟨x, x⟩)) := by decide +kernel

/-! ### Snapshots -/

/-- V-SNAP-1. -/
theorem test_save_reset : (after .saveState State.reset).reply = .value (.bytes (snapWith [])) := by decide +kernel
/-- V-SNAP-2 from offset 264: the end state of P1. -/
theorem test_save_tail : ((saveBytes .ref { mutable [(0x20, 0x02#8)]
      { OperatorBank.reset with op0 := osc 49488 0 .off false, op1 := osc 98976 1023 .sustain true } 12 0
      with latch := 0x20#8 }).drop 264).take 21 =
    [0x20#8, 0x0c#8, 0x00#8, 0x00#8, 0x00#8, 0x50#8, 0xc1#8, 0x00#8, 0x00#8, 0x00#8, 0x00#8, 0x00#8, 0x00#8, 0xa0#8, 0x82#8,
     0x01#8, 0x00#8, 0xff#8, 0x03#8, 0x03#8, 0x01#8] := by decide +kernel
/-- V-SNAP-3 to V-SNAP-12: the failed check of each snapshot (none for a valid one). -/
theorem test_snapshot_checks :
    [snapWith [(0, 0x58#8)], snapWith [(4, 2#8)], snapWith [(5, 2#8)], snapWith [(6, 1#8)], snapWith [(7, 0x80#8)],
      snapWith [(271, 0x10#8)], snapWith [(327, 0x10#8)], snapWith [(274, 4#8)], snapWith [(275, 5#8)], snapWith [(276, 2#8)],
      (snapWith []).drop 1, [],
      snapWith [(269, 0xff#8), (270, 0xff#8), (271, 0x0f#8), (273, 0xff#8), (274, 3#8), (275, 4#8), (276, 1#8)]].map
      (snapshotFailure .ref) =
    [some .format, some .version, some .family, some .format, some .format, some .field, some .field, some .field, some .field,
      some .field, some .length, some .length, none] := by decide +kernel
/-- V-SNAP-14, V-SNAP-13's latch. -/
theorem test_load : (after (.loadState (snapWith [(11, 0x10#8), (48, 0x10#8), (264, 0xff#8), (281, 0xf4#8), (282, 1#8)]))
      (withRegs [(0x03, 7#8)])).chip =
    some { clock := 64, family := .ref,
           st := { mutable [(0x03, 0x10#8), (0x28, 0x10#8)] { OperatorBank.reset with op1 := osc 0 500 .off false } 0 0
                   with latch := 0xff#8 } } := by decide +kernel
/-- V-SNAP-9: nothing changes. -/
theorem test_load_refused : after (.loadState (snapWith [(274, 4#8)])) (withRegs [(0x03, 7#8)]) =
    { withRegs [(0x03, 7#8)] with reply := .error ⟨.invalidState, .field⟩ } := by decide +kernel

/-! ### The stream runner -/

/-- V-ENC-2. -/
theorem test_step_without_chip : afterStep (runStart [0x02#8, 0x03#8, 0x10#8]) =
    { runStart [0x02#8, 0x03#8, 0x10#8] with
      reply := .error ⟨.invalidState, .noInstance⟩, status := .failed ⟨.invalidState, .noInstance⟩ 0 } := by decide
/-- V-ENC-3. -/
theorem test_step_construct_zero : (afterStep (runStart [0x01#8, 0x00#8, 0x00#8, 0x00#8, 0x00#8])).status =
    .failed ⟨.invalidArgument, .clock⟩ 0 := by decide
/-- V-ENC-4's third command. -/
theorem test_step_collects_results : (afterStep { State.reset with stream := [0x0b#8, 0x0c#8], offset := 10, results := [.integer 1] }) =
    { State.reset with stream := [0x0c#8], offset := 11, results := [.integer 1, .integer 2], reply := .value (.integer 2) } := by
  decide
/-- V-ENC-1, V-ENC-9. -/
theorem test_step_ends : (afterStep (runStart [])).status = .finished ∧
    (afterStep { State.reset with stream := [0x00#8], offset := 5 }).status = .failed ⟨.unsupported, .reservedOpcode⟩ 5 := by decide
/-- A command placed at the head of the stream is the one the next step performs. -/
theorem test_withFetchWord : (afterStep (State.reset.withFetchWord 24 0x100302)).chip.map Chip.st =
    some { MutState.reset with regs := [(0x03, 0x10#8)], latch := 0x03#8 } := by decide

/-! ### Witnesses: for each obligation with hypotheses, a state and operands that meet all of them -/

/-- The chip of the witnesses: registers 0x03 and 0xFF written, clock 1. -/
def chipW : Chip := { clock := 1, family := .ref, st := { mutable [(0x03, 7#8), (0xFF, 9#8)] OperatorBank.reset 0 0 with latch := 255#8 } }
/-- The state of the witnesses, about to perform a WRITE. -/
def stateW : State := { State.reset with chip := some chipW, stream := [0x02#8, 0x28#8, 0x30#8, 0x06#8] }

theorem witness_DecodeOfEncodeIsTheOperation : ∃ i : Instr, i.wellFormed = true :=
  ⟨.construct (.int 4294967295), by decide⟩
theorem witness_EncodeOfDecodeIsTheBytes : ∃ stream rest i n, decodeOne stream = .command i n rest :=
  ⟨[0x07#8, 0x01#8, 0x00#8, 0xff#8, 0x06#8], [0x06#8], .loadState [0xff#8], 4, by decide⟩
theorem witness_ReservedOpcodesAreUnsupported :
    (∃ (s : State) (op : Byte) (rest : List Byte), s.status = .running ∧ s.stream = op :: rest ∧ op.toNat = 0x00) ∧
    (∃ (s : State) (op : Byte) (rest : List Byte), s.status = .running ∧ s.stream = op :: rest ∧ op.toNat = 0x0C) :=
  ⟨⟨runStart [0x00#8], 0x00#8, [], rfl, rfl, rfl⟩, ⟨runStart [0x0C#8], 0x0C#8, [], rfl, rfl, rfl⟩⟩
theorem witness_TruncatedCommandsAreInvalidArgument :
    (∃ s : State, s.status = .running ∧ decodeOne s.stream = .truncated) ∧
    decodeOne [0x03#8] = .truncated ∧ decodeOne [0x02#8, 0x01#8] = .truncated ∧
    decodeOne [0x05#8, 0x01#8, 0x00#8, 0x00#8] = .truncated ∧ decodeOne [0x07#8, 0x01#8] = .truncated ∧
    decodeOne [0x07#8, 0x01#8, 0x00#8] = .truncated :=
  ⟨⟨runStart [0x01#8, 0x01#8, 0x00#8, 0x00#8], rfl, by decide⟩, by decide⟩
theorem witness_StepPerformsTheDecodedOperation :
    (∃ (s : State) (i : Instr) (n : Nat) (rest : List Byte), s.status = .running ∧ decodeOne s.stream = .command i n rest ∧
      (after i s).reply = .nothing) ∧
    (∃ (s : State) (i : Instr) (n : Nat) (rest : List Byte), s.status = .running ∧ decodeOne s.stream = .command i n rest ∧
      (after i s).reply = .value (.integer 2)) ∧
    (∃ (s : State) (i : Instr) (n : Nat) (rest : List Byte), s.status = .running ∧ decodeOne s.stream = .command i n rest ∧
      (after i s).reply = .error ⟨.invalidState, .noInstance⟩) :=
  ⟨⟨stateW, .write (.int 0x28) (.int 0x30), 3, [0x06#8], rfl, by decide, by decide⟩,
   ⟨{ stateW with stream := [0x0b#8] }, .readOutputs, 1, [], rfl, by decide, by decide⟩,
   ⟨runStart [0x08#8], .reset, 1, [], rfl, by decide, by decide⟩⟩
theorem witness_RunReturnsAtTheEndAndThenStops :
    (∃ s : State, s.status = .running ∧ s.stream = []) ∧ (∃ s : State, s.status ≠ .running) :=
  ⟨⟨State.reset, rfl, rfl⟩, ⟨{ State.reset with status := .finished }, by decide⟩⟩
theorem witness_ErrorEndsTheRunAndChangesNothing :
    ∃ (s t : State) (e : Error) (o : Nat), step s = .next t ∧ t.status = .failed e o :=
  ⟨{ stateW with stream := [0x07#8, 0x00#8, 0x00#8] }, afterStep { stateW with stream := [0x07#8, 0x00#8, 0x00#8] },
    ⟨.invalidState, .length⟩, 0, rfl, by decide⟩
theorem witness_RaisingOperationChangesNothing :
    ∃ (i : Instr) (s t : State) (e : Error), exec i s = .next t ∧ t.reply = .error e :=
  ⟨.write (.int 256) (.int 0), stateW, after (.write (.int 256) (.int 0)) stateW, ⟨.invalidArgument, .address⟩, rfl, by decide⟩
theorem witness_OperationErrorsAreTheListedCauses :
    (∃ (s : State) (c : Chip), s.chip = some c) ∧
    (after (.construct (.int 0)) stateW).reply = .error ⟨.invalidArgument, .clock⟩ ∧
    (after (.write (.int (-1)) (.int 256)) stateW).reply = .error ⟨.invalidArgument, .address⟩ ∧
    (after (.write (.int 255) (.int 256)) stateW).reply = .error ⟨.invalidArgument, .value⟩ ∧
    (after (.writeAddress (.int 256)) stateW).reply = .error ⟨.invalidArgument, .address⟩ ∧
    (after (.writeData .nonInteger) stateW).reply = .error ⟨.invalidArgument, .value⟩ ∧
    (after (.generate (.int (-1))) stateW).reply = .error ⟨.invalidArgument, .count⟩ ∧
    (after (.loadState []) stateW).reply = .error ⟨.invalidState, .length⟩ ∧
    [[(0, 0x58#8), (4, 2#8)], [(4, 2#8), (5, 2#8)], [(5, 2#8), (6, 1#8)], [(6, 1#8), (276, 2#8)], [(7, 1#8)], [(332, 2#8)]].map
      (fun l => (after (.loadState (snapWith l)) stateW).reply) =
    [.format, .version, .family, .format, .format, .field].map (fun info => .error ⟨.invalidState, info⟩) :=
  ⟨⟨stateW, chipW, rfl⟩, by decide +kernel⟩
theorem witness_OperationBeforeConstructIsInvalidState :
    ∃ (i : Instr) (s : State), s.chip = none ∧ ∀ a, i ≠ .construct a :=
  ⟨.write (.int 256) (.int 0), runStart [], rfl, by intro a h; cases h⟩
theorem witness_ConstructMakesAChipInTheResetState :
    (∃ v : Int, 1 ≤ v) ∧ (∃ a : Arg, (∃ v, a = .int v) ∧ ∀ v, a = .int v → v ≤ 0) ∧
    (∃ a : Arg, a = .nonInteger ∧ ∀ v, a = .int v → v ≤ 0) :=
  ⟨⟨1, by decide⟩, ⟨.int 0, ⟨0, rfl⟩, by intro v h; cases h; decide⟩, ⟨.nonInteger, rfl, by intro v h; cases h⟩⟩
theorem witness_ResetClearsTheMutableState : ∃ (s : State) (c : Chip), s.chip = some c := ⟨stateW, chipW, rfl⟩
theorem witness_ResetTwiceIsResetOnce :
    ∃ (s t : State) (c : Chip), s.chip = some c ∧ exec .reset s = .next t :=
  ⟨stateW, after .reset stateW, chipW, rfl, rfl⟩
theorem witness_PropertyReadsAnswer : ∃ (s : State) (c : Chip), s.chip = some c := ⟨stateW, chipW, rfl⟩
theorem witness_ConfigurationIsFixedAfterConstruct :
    ∃ (i : Instr) (s t : State) (c : Chip), s.chip = some c ∧ (∀ a, i ≠ .construct a) ∧ exec i s = .next t :=
  ⟨.reset, stateW, after .reset stateW, chipW, rfl, (by intro a h; cases h), rfl⟩
theorem witness_WriteStoresTheByteAndSetsTheLatch :
    (∃ (s : State) (c : Chip) (a v : Int), s.chip = some c ∧ c.st.regs.wf = true ∧ 0 ≤ a ∧ a ≤ 255 ∧ 0 ≤ v ∧ v ≤ 255) ∧
    (∃ (s : State) (c : Chip) (a : Arg), s.chip = some c ∧ ∀ x, a = .int x → x < 0 ∨ 255 < x) ∧
    (∃ (s : State) (c : Chip) (a : Int) (v : Arg), s.chip = some c ∧ 0 ≤ a ∧ a ≤ 255 ∧ ∀ x, v = .int x → x < 0 ∨ 255 < x) :=
  ⟨⟨stateW, chipW, 255, 255, rfl, by decide⟩, ⟨stateW, chipW, .int 256, rfl, by intro x h; cases h; decide⟩,
   ⟨stateW, chipW, 0, .int (-1), rfl, by decide, by decide, by intro x h; cases h; decide⟩⟩
theorem witness_WriteAddressSetsOnlyTheLatch :
    (∃ (s : State) (c : Chip) (a : Int), s.chip = some c ∧ 0 ≤ a ∧ a ≤ 255) ∧
    (∃ (s : State) (c : Chip) (a : Arg), s.chip = some c ∧ ∀ x, a = .int x → x < 0 ∨ 255 < x) :=
  ⟨⟨stateW, chipW, 255, rfl, by decide⟩, ⟨stateW, chipW, .int 256, rfl, by intro x h; cases h; decide⟩⟩
theorem witness_WriteDataStoresAtTheLatch :
    (∃ (s : State) (c : Chip) (v : Int), s.chip = some c ∧ c.st.regs.wf = true ∧ 0 ≤ v ∧ v ≤ 255) ∧
    (∃ (s : State) (c : Chip) (v : Arg), s.chip = some c ∧ ∀ x, v = .int x → x < 0 ∨ 255 < x) :=
  ⟨⟨stateW, chipW, 255, rfl, by decide⟩, ⟨stateW, chipW, .int 256, rfl, by intro x h; cases h; decide⟩⟩
theorem witness_SplitWriteEqualsWrite :
    (∃ (s : State) (c : Chip) (a v : Int), s.chip = some c ∧ 0 ≤ a ∧ a ≤ 255 ∧ 0 ≤ v ∧ v ≤ 255) ∧
    (∃ (s : State) (c : Chip) (a : Arg), s.chip = some c ∧ ∀ x, a = .int x → x < 0 ∨ 255 < x) ∧
    (∃ (s : State) (c : Chip) (a : Int) (v : Arg), s.chip = some c ∧ 0 ≤ a ∧ a ≤ 255 ∧ ∀ x, v = .int x → x < 0 ∨ 255 < x) :=
  ⟨⟨stateW, chipW, 255, 0, rfl, by decide⟩, ⟨stateW, chipW, .int (-1), rfl, by intro x h; cases h; decide⟩,
   ⟨stateW, chipW, 5, .int 300, rfl, by decide, by decide, by intro x h; cases h; decide⟩⟩
theorem witness_LastWriteWins :
    ∃ (s t : State) (c : Chip) (a v w : Int), s.chip = some c ∧ c.st.regs.wf = true ∧ 0 ≤ a ∧ a ≤ 255 ∧ 0 ≤ v ∧ v ≤ 255 ∧
      0 ≤ w ∧ w ≤ 255 ∧ exec (.write (.int a) (.int v)) s = .next t :=
  ⟨stateW, after (.write (.int 3) (.int 1)) stateW, chipW, 3, 1, 16, rfl, by decide, by decide, by decide, by decide, by decide,
    by decide, by decide, rfl⟩
theorem witness_WritesToDifferentAddressesCommute :
    ∃ (s : State) (c : Chip) (a v b w : Int), s.chip = some c ∧ c.st.regs.wf = true ∧ a ≠ b ∧ 0 ≤ a ∧ a ≤ 255 ∧ 0 ≤ v ∧
      v ≤ 255 ∧ 0 ≤ b ∧ b ≤ 255 ∧ 0 ≤ w ∧ w ≤ 255 :=
  ⟨stateW, chipW, 0, 255, 255, 0, rfl, by decide⟩
theorem witness_OnlyTicksAndReplacementsWriteGeneratorState :
    (∃ (i : Instr) (s t : State) (c d : Chip), s.chip = some c ∧ exec i s = .next t ∧ t.chip = some d ∧
      (∀ n, i ≠ .generate n) ∧ (∀ a, i ≠ .construct a) ∧ (∀ b, i ≠ .loadState b) ∧ i ≠ .reset) ∧
    (∃ (i : Instr) (s t : State) (c d : Chip), s.chip = some c ∧ exec i s = .next t ∧ t.chip = some d ∧ ∃ n, i = .generate n) :=
  ⟨⟨.writeAddress (.int 7), stateW, after (.writeAddress (.int 7)) stateW, chipW,
      { chipW with st := { chipW.st with latch := 7#8 } }, rfl, rfl, rfl, (by intro n h; cases h),
      (by intro n h; cases h), (by intro n h; cases h), (by intro h; cases h)⟩,
   ⟨.generate (.int 0), stateW, after (.generate (.int 0)) stateW, chipW, chipW, rfl, rfl, rfl, ⟨_, rfl⟩⟩⟩
theorem witness_UnmappedWriteChangesNoFrame :
    ∀ a ∈ [0x00, 0x01, 0x04, 0x0F, 0x18, 0x1F, 0x24, 0x27, 0x2C, 0x3F, 0x60, 0xFF].map Int.ofNat,
      ∃ (s t u w : State) (c : Chip) (v : Int) (n : Arg), s.chip = some c ∧ c.st.regs.wf = true ∧
      (a = 0x00 ∨ a = 0x01 ∨ (0x04 ≤ a ∧ a ≤ 0x0F) ∨ (0x18 ≤ a ∧ a ≤ 0x1F) ∨ (0x24 ≤ a ∧ a ≤ 0x27) ∨
        (0x2C ≤ a ∧ a ≤ 0x3F) ∨ (0x60 ≤ a ∧ a ≤ 0xFF)) ∧ 0 ≤ v ∧ v ≤ 255 ∧
      exec (.write (.int a) (.int v)) s = .next t ∧ exec (.generate n) s = .next u ∧ exec (.generate n) t = .next w := by
  intro a ha
  have h : ∃ n ∈ [0x00, 0x01, 0x04, 0x0F, 0x18, 0x1F, 0x24, 0x27, 0x2C, 0x3F, 0x60, 0xFF], Int.ofNat n = a := List.mem_map.mp ha
  refine ⟨stateW, after (.write (.int a) (.int 255)) stateW, after (.generate (.int 1)) stateW,
    after (.generate (.int 1)) (after (.write (.int a) (.int 255)) stateW), chipW, 255, .int 1, rfl, by decide, ?_, by decide,
    by decide, ?_, ?_, ?_⟩
  · obtain ⟨n, hn, rfl⟩ := h
    revert n; decide
  · obtain ⟨n, hn, rfl⟩ := h
    simp only [List.mem_cons, List.not_mem_nil, or_false] at hn
    rcases hn with rfl | rfl | rfl | rfl | rfl | rfl | rfl | rfl | rfl | rfl | rfl | rfl <;> rfl
  · rfl
  · obtain ⟨n, hn, rfl⟩ := h
    simp only [List.mem_cons, List.not_mem_nil, or_false] at hn
    rcases hn with rfl | rfl | rfl | rfl | rfl | rfl | rfl | rfl | rfl | rfl | rfl | rfl <;> rfl
theorem witness_UnusedRegisterBitsAreNeverHeard :
    ∀ f ∈ [((0x14 : Nat), (0x24 : Nat), (0xE4 : Nat)), (0x23, 1, 0xFD), (0x28, 0x31, 0xF9), (0x50, 0x71, 0xF1), (0x5F, 0, 0x80)],
      ∃ (s t t' u u' : State) (c : Chip) (a v w : Int) (n : Arg), s.chip = some c ∧ c.st.regs.wf = true ∧ v ≠ w ∧
      0 ≤ v ∧ v ≤ 255 ∧ 0 ≤ w ∧ w ≤ 255 ∧ a = f.1 ∧ v = f.2.1 ∧ w = f.2.2 ∧
      ((0x14 ≤ a ∧ a ≤ 0x17 ∧ v % 64 = w % 64) ∨ (0x20 ≤ a ∧ a ≤ 0x23 ∧ v % 4 = w % 4) ∨
        (0x28 ≤ a ∧ a ≤ 0x2B ∧ v % 8 = w % 8 ∧ v / 16 % 4 = w / 16 % 4) ∨ (0x50 ≤ a ∧ a ≤ 0x5F ∧ v % 128 = w % 128)) ∧
      exec (.write (.int a) (.int v)) s = .next t ∧ exec (.write (.int a) (.int w)) s = .next t' ∧
      exec (.generate n) t = .next u ∧ exec (.generate n) t' = .next u' := by
  intro f hf
  refine ⟨stateW, after (.write (.int f.1) (.int f.2.1)) stateW, after (.write (.int f.1) (.int f.2.2)) stateW,
    after (.generate (.int 1)) (after (.write (.int f.1) (.int f.2.1)) stateW),
    after (.generate (.int 1)) (after (.write (.int f.1) (.int f.2.2)) stateW), chipW, f.1, f.2.1, f.2.2, .int 1, rfl, by decide, ?_⟩
  simp only [List.mem_cons, List.not_mem_nil, or_false] at hf
  rcases hf with rfl | rfl | rfl | rfl | rfl <;>
    exact ⟨by decide, by decide, by decide, by decide, by decide, rfl, rfl, rfl, by decide, rfl, rfl, rfl, rfl⟩
theorem witness_GenerateRunsTheTicksInOrder :
    (∃ (s : State) (c : Chip) (n : Int), s.chip = some c ∧ 0 ≤ n) ∧
    (∃ (s : State) (c : Chip) (n : Arg), s.chip = some c ∧ ∀ v, n = .int v → v < 0) :=
  ⟨⟨stateW, chipW, 0, rfl, by decide⟩, ⟨stateW, chipW, .int (-1), rfl, by intro v h; cases h; decide⟩⟩
theorem witness_GenerateSplitsAtAnyTick :
    ∃ (s : State) (c : Chip) (a b : Int), s.chip = some c ∧ 0 ≤ a ∧ 0 ≤ b := ⟨stateW, chipW, 5, 7, rfl, by decide⟩
theorem witness_GenerateDependsOnTheMutableStateAlone :
    ∃ (s s' t t' : State) (c c' : Chip) (n : Arg), s.chip = some c ∧ s'.chip = some c' ∧ c.st = c'.st ∧ c.clock ≠ c'.clock ∧
      exec (.generate n) s = .next t ∧ exec (.generate n) s' = .next t' :=
  ⟨stateW, machine 999 chipW.st, after (.generate (.int 1)) stateW, after (.generate (.int 1)) (machine 999 chipW.st), chipW,
    { chipW with clock := 999 }, .int 1, rfl, rfl, rfl, by decide, rfl, rfl⟩
theorem witness_CountersAdvanceEveryTick : ∃ (s : State) (c : Chip) (n : Int), s.chip = some c ∧ 0 ≤ n :=
  ⟨stateW, chipW, 12, rfl, by decide⟩
theorem witness_PhaseAdvancesByTheStepEveryTick :
    ∃ (s : State) (c : Chip) (n : Int) (k : Fin 8), s.chip = some c ∧ 0 ≤ n ∧ keyBit c.st.regs k = (c.st.ops.get k).kprev :=
  ⟨stateW, chipW, 12, 7, rfl, by decide, by decide⟩
theorem witness_TickTakesEdgesThenEnvelopeThenAdvance :
    (∃ (m : MutState) (k : Fin 8), keyBit m.regs k = true ∧ (m.ops.get k).kprev = false ∧ m.envTimer.toNat % 8 = 0) ∧
    (∃ (m : MutState) (k : Fin 8), ¬ (keyBit m.regs k = true ∧ (m.ops.get k).kprev = false) ∧ m.envTimer.toNat % 8 ≠ 0 ∧
      (keyEdge m.regs k (m.ops.get k)).eg = .off) ∧
    (∃ (m : MutState) (k : Fin 8), m.envTimer.toNat % 8 ≠ 0 ∧ (keyEdge m.regs k (m.ops.get k)).eg = .attack) ∧
    (∃ (m : MutState) (k : Fin 8), m.envTimer.toNat % 8 ≠ 0 ∧ (keyEdge m.regs k (m.ops.get k)).eg = .release) :=
  ⟨⟨mutable [(0x20, 0x02#8)] OperatorBank.reset 8 0, 1, by decide⟩, ⟨mutable [] OperatorBank.reset 7 0, 0, by decide⟩,
   ⟨mutable [(0x20, 0x02#8)] OperatorBank.reset 1 0, 1, by decide⟩,
   ⟨mutable [] { OperatorBank.reset with op1 := osc 5 9 .sustain true } 1 0, 1, by decide⟩⟩
theorem witness_FrameIsMixedAfterEdgesAndEnvelope :
    ∃ (s : State) (c : Chip) (b : OperatorBank), s.chip = some c ∧
      ∀ k, b.get k =
        if c.st.envTimer.toNat % 8 = 0 then egUpdate c.st.regs k (keyEdge c.st.regs k (c.st.ops.get k))
        else keyEdge c.st.regs k (c.st.ops.get k) :=
  ⟨withRegs [(0x20, 0x02#8), (0x41, 0xF0#8)], { clock := 64, family := .ref, st := mutable [(0x20, 0x02#8), (0x41, 0xF0#8)] OperatorBank.reset 0 0 },
    { OperatorBank.reset with op1 := osc 0 1023 .decay true }, rfl, by decide⟩
theorem witness_WaveformsAreBuiltFromTheQuarterWave :
    (∃ j : Nat, j < 64) ∧ (∃ i : Nat, i < 128) ∧ (∃ i : Nat, 128 ≤ i) := ⟨⟨63, by decide⟩, ⟨127, by decide⟩, ⟨128, by decide⟩⟩
theorem witness_OperatorOutputIsTheScaledWaveform :
    (∃ (r : Memory) (k : Fin 8) (o : Operator) (amp : Nat), amp = o.level.toNat * (128 - (r.read (0x58 + k.val)).toNat % 128) / 128 ∧
      (r.read (0x50 + k.val)).toNat / 64 % 2 = 0) ∧
    (∃ (r : Memory) (k : Fin 8) (o : Operator) (amp : Nat), amp = o.level.toNat * (128 - (r.read (0x58 + k.val)).toNat % 128) / 128 ∧
      (r.read (0x50 + k.val)).toNat / 64 % 2 = 1) :=
  ⟨⟨[(0x58, 64#8)], 0, osc 0 1023 .sustain true, 511, by decide⟩,
   ⟨[(0x51, 0x40#8), (0x59, 127#8)], 1, osc 0 1023 .sustain true, 7, by decide⟩⟩
theorem witness_OperatorOutputIsBounded :
    ∃ (r : Memory) (k : Fin 8) (o : Operator), o.level = 0#10 ∧ (r.read (0x50 + k.val)).toNat / 64 % 2 = 0 :=
  ⟨[], 7, osc 5 0 .off false, by decide⟩
theorem witness_LfoAmountIsTheScaledTriangle :
    (∃ r : Memory, (r.read 0x02).toNat / 16 = 0) ∧ (∃ lfo : BitVec 16, lfo.toNat / 256 = 127) ∧
    (∃ lfo : BitVec 16, lfo.toNat / 256 = 128) := ⟨⟨[(0x02, 0x0F#8)], by decide⟩, ⟨0x7FFF#16, by decide⟩, ⟨0x8000#16, by decide⟩⟩
theorem witness_KeyEdgesFollowTheKeyBit :
    (∃ (r : Memory) (k : Fin 8) (o : Operator), (r.read (0x20 + k.val / 2)).toNat / 2 ^ (k.val % 2) % 2 = 1 ∧ o.kprev = false) ∧
    (∃ (r : Memory) (k : Fin 8) (o : Operator), (r.read (0x20 + k.val / 2)).toNat / 2 ^ (k.val % 2) % 2 = 0 ∧ o.kprev = true) ∧
    (∃ (r : Memory) (k : Fin 8) (o : Operator), (r.read (0x20 + k.val / 2)).toNat / 2 ^ (k.val % 2) % 2 = o.kprev.toNat) :=
  ⟨⟨[(0x23, 0x02#8)], 7, osc 5 0 .off false, by decide⟩, ⟨[(0x23, 0x01#8)], 7, osc 5 9 .decay true, by decide⟩,
   ⟨[(0x20, 0x01#8)], 0, osc 5 9 .decay true, by decide⟩⟩
theorem witness_AttackRaisesTheLevel :
    (∃ (r : Memory) (k : Fin 8) (o : Operator), o.eg = .attack ∧ (egUpdate r k o).level.toNat = 1023) ∧
    (∃ (r : Memory) (k : Fin 8) (o : Operator), o.eg = .attack ∧ (egUpdate r k o).level.toNat ≠ 1023) :=
  ⟨⟨[], 0, osc 0 1023 .attack true, by decide⟩, ⟨[], 0, osc 0 1022 .attack true, by decide⟩⟩
theorem witness_DecayEndsAtTheSustainLevel :
    (∃ (r : Memory) (k : Fin 8) (o : Operator) (target nl : Int), o.eg = .decay ∧
      target = 1023 - ((r.read (0x48 + k.val)).toNat / 16 : Nat) * 64 ∧
      nl = (o.level.toNat : Int) - (egStep ((r.read (0x40 + k.val)).toNat % 16) : Nat) ∧ nl ≤ target) ∧
    (∃ (r : Memory) (k : Fin 8) (o : Operator) (target nl : Int), o.eg = .decay ∧
      target = 1023 - ((r.read (0x48 + k.val)).toNat / 16 : Nat) * 64 ∧
      nl = (o.level.toNat : Int) - (egStep ((r.read (0x40 + k.val)).toNat % 16) : Nat) ∧ target < nl) :=
  ⟨⟨[], 0, osc 0 1023 .decay true, 1023, 1023, by decide⟩, ⟨[(0x40, 1#8), (0x48, 0x10#8)], 0, osc 0 961 .decay true, 959, 960, by decide⟩⟩
theorem witness_SustainAndOffHold :
    (∃ o : Operator, o.eg = .sustain) ∧ (∃ o : Operator, o.eg = .off) :=
  ⟨⟨osc 0 895 .sustain true, rfl⟩, ⟨osc 0 500 .off false, rfl⟩⟩
theorem witness_ReleaseFallsToOff : ∃ o : Operator, o.eg = .release := ⟨osc 0 895 .release false, rfl⟩
theorem witness_FullAttackTakesTheStatedClocks :
    ∀ n ∈ [63, 64], ∃ (r : Memory) (k : Fin 8) (o : Operator) (step : Nat), o.eg = .attack ∧ o.level = 0#10 ∧
      step = egStep ((r.read (0x40 + k.val)).toNat / 16) ∧ (r.read (0x40 + k.val)).toNat / 16 ≠ 0 ∧
      ((n = 63 ∧ n * step < 1023) ∨ (n = 64 ∧ 1023 ≤ n * step ∧ (n - 1) * step < 1023)) := fun n hn =>
  ⟨[(0x41, 0x80#8)], 1, osc 0 0 .attack true, 16, by revert n; decide⟩
theorem witness_ChannelOutIsFmOrSum :
    (∃ (r : Memory) (b : OperatorBank) (ch : Fin 4) (am : Nat) (m c : Fin 8) (modulator : Int), m.val = 2 * ch.val ∧
      c.val = 2 * ch.val + 1 ∧ modulator = opOut r m (b.get m) (b.get m).phase am ∧ (r.read (0x28 + ch.val)).toNat % 8 = 1) ∧
    (∃ (r : Memory) (b : OperatorBank) (ch : Fin 4) (am : Nat) (m c : Fin 8) (modulator : Int), m.val = 2 * ch.val ∧
      c.val = 2 * ch.val + 1 ∧ modulator = opOut r m (b.get m) (b.get m).phase am ∧ (r.read (0x28 + ch.val)).toNat % 8 ≠ 1) :=
  ⟨⟨[(0x2B, 0x01#8)], OperatorBank.reset, 3, 0, 6, 7, 0, by decide⟩, ⟨[(0x2B, 0x02#8)], OperatorBank.reset, 3, 0, 6, 7, 0, by decide⟩⟩
theorem witness_UndefinedAlgorithmSoundsAsZero :
    ∃ (s t t' u u' : State) (c : Chip) (ch v : Int) (n : Arg), s.chip = some c ∧ c.st.regs.wf = true ∧ 0 ≤ ch ∧ ch ≤ 3 ∧ 0 ≤ v ∧
      v ≤ 255 ∧ 2 ≤ v % 8 ∧ exec (.write (.int (0x28 + ch)) (.int v)) s = .next t ∧
      exec (.write (.int (0x28 + ch)) (.int (v - v % 8))) s = .next t' ∧ exec (.generate n) t = .next u ∧
      exec (.generate n) t' = .next u' :=
  ⟨stateW, after (.write (.int 0x2B) (.int 0x37)) stateW, after (.write (.int 0x2B) (.int 0x30)) stateW,
    after (.generate (.int 1)) (after (.write (.int 0x2B) (.int 0x37)) stateW),
    after (.generate (.int 1)) (after (.write (.int 0x2B) (.int 0x30)) stateW), chipW, 3, 0x37, .int 1, rfl, by decide, by decide,
    by decide, by decide, by decide, by decide, rfl, rfl, rfl, rfl⟩
theorem witness_OutputIsScaledAndClamped :
    ∃ (r : Memory) (c : Fin 4 → Int) (l rt : Int),
      l = (∑ ch : Fin 4, if (r.read (0x28 + ch.val)).toNat / 16 % 2 = 1 then c ch else 0) ∧
      rt = (∑ ch : Fin 4, if (r.read (0x28 + ch.val)).toNat / 32 % 2 = 1 then c ch else 0) :=
  ⟨[(0x03, 255#8), (0x28, 0x10#8), (0x2B, 0x30#8)], fun _ => 4090, 8180, 4090, by decide⟩
theorem witness_VolumeZeroIsSilence :
    ∃ (s : State) (c : Chip) (n : Int), s.chip = some c ∧ c.st.regs.read 0x03 = 0x00#8 ∧ 0 ≤ n :=
  ⟨withRegs [(0x28, 0x30#8)], { clock := 64, family := .ref, st := mutable [(0x28, 0x30#8)] OperatorBank.reset 0 0 }, 4, rfl, by decide⟩
theorem witness_ResetIsFollowedBySilence :
    ∃ (s t : State) (c : Chip) (n : Int), s.chip = some c ∧ exec .reset s = .next t ∧ 0 ≤ n :=
  ⟨stateW, after .reset stateW, chipW, 4, rfl, rfl, by decide⟩
theorem witness_UnityGainNeverClamps : ∀ v ∈ [16#8, 32#8],
    ∃ (m : MutState) (l rt : Int) (c : Fin 4 → Int),
      (∀ ch, c ch = channelOut m.regs (tickOperators m) ch (lfoAm m.lfo m.regs)) ∧
      l = (∑ ch : Fin 4, if (m.regs.read (0x28 + ch.val)).toNat / 16 % 2 = 1 then c ch else 0) ∧
      rt = (∑ ch : Fin 4, if (m.regs.read (0x28 + ch.val)).toNat / 32 % 2 = 1 then c ch else 0) ∧
      m.regs.read 0x03 = v := fun v _ =>
  ⟨mutable [(0x03, v), (0x28, 0x30#8)] OperatorBank.reset 1 0, _, _, _, fun _ => rfl, rfl, rfl, rfl⟩
theorem witness_SaveStateLaysOutEveryField : ∃ (s : State) (c : Chip), s.chip = some c := ⟨stateW, chipW, rfl⟩
theorem witness_LoadStateReplacesTheMutableState :
    ∃ (s : State) (c : Chip) (b : List Byte), s.chip = some c ∧ b.length = 333 ∧
      b.take 8 = [0x59#8, 0x4D#8, 0x53#8, 0x53#8, 0x01#8, 0x01#8, 0x00#8, 0x00#8] ∧
      (∀ k, k < 8 → memRead b (269 + 8 * k) 4 < 1048576 ∧ memRead b (273 + 8 * k) 2 ≤ 1023 ∧
        memRead b (275 + 8 * k) 1 ≤ 4 ∧ memRead b (276 + 8 * k) 1 ≤ 1) :=
  ⟨stateW, chipW, snapWith [(269, 0xff#8), (270, 0xff#8), (271, 0x0f#8), (273, 0xff#8), (274, 3#8), (275, 4#8), (276, 1#8)], rfl,
    by decide +kernel⟩
theorem witness_InvalidSnapshotIsRefusedUntouched :
    (∃ (s : State) (c : Chip) (b : List Byte), s.chip = some c ∧ b.length ≠ 333) ∧
    (∃ (s : State) (c : Chip) (b : List Byte), s.chip = some c ∧
      b.take 8 ≠ [0x59#8, 0x4D#8, 0x53#8, 0x53#8, 0x01#8, 0x01#8, 0x00#8, 0x00#8]) ∧
    (∃ (s : State) (c : Chip) (b : List Byte), s.chip = some c ∧
      ∃ k, k < 8 ∧ (1048576 ≤ memRead b (269 + 8 * k) 4 ∨ 1023 < memRead b (273 + 8 * k) 2 ∨
        4 < memRead b (275 + 8 * k) 1 ∨ 1 < memRead b (276 + 8 * k) 1)) :=
  ⟨⟨stateW, chipW, [], rfl, by decide⟩, ⟨stateW, chipW, snapWith [(7, 0x80#8)], rfl, by decide +kernel⟩,
   ⟨stateW, chipW, snapWith [(327, 0x10#8)], rfl, 7, by decide +kernel⟩⟩
theorem witness_LoadOfSaveKeepsTheChip : ∃ (s : State) (c : Chip), s.chip = some c ∧ c.st.regs.wf = true :=
  ⟨stateW, chipW, rfl, by decide⟩
theorem exec_loadState_after (b : List Byte) (s : State) : exec (.loadState b) s = .next (after (.loadState b) s) := by
  simp only [after, exec, execLoadState, onChip]
  cases s.chip with
  | none => rfl
  | some c => simp only; cases snapshotFailure c.family b <;> rfl
theorem exec_generate_after (n : Arg) (s : State) : exec (.generate n) s = .next (after (.generate n) s) := by
  simp only [after, exec, execGenerate, onChip]
  cases s.chip with
  | none => rfl
  | some c => simp only; cases checkCount n <;> rfl
theorem witness_SaveOfLoadReturnsTheBytes :
    ∃ (s t : State) (c : Chip) (b : List Byte), s.chip = some c ∧ exec (.loadState b) s = .next t ∧ t.reply = .nothing :=
  ⟨stateW, after (.loadState (snapWith [])) stateW, chipW, snapWith [], rfl,
    exec_loadState_after _ _, by decide +kernel⟩
theorem witness_SnapshotSoundsAlikeUnderAnyClock :
    ∃ (s s' t t' u u' : State) (c c' : Chip) (b : List Byte) (n : Arg), s.chip = some c ∧ s'.chip = some c' ∧ c.clock ≠ c'.clock ∧
      exec (.loadState b) s = .next t ∧ t.reply = .nothing ∧ exec (.loadState b) s' = .next t' ∧ t'.reply = .nothing ∧
      exec (.generate n) t = .next u ∧ exec (.generate n) t' = .next u' :=
  ⟨stateW, State.reset, after (.loadState (snapWith [])) stateW, after (.loadState (snapWith [])) State.reset,
    after (.generate (.int 1)) (after (.loadState (snapWith [])) stateW),
    after (.generate (.int 1)) (after (.loadState (snapWith [])) State.reset), chipW,
    { clock := 64, family := .ref, st := MutState.reset }, snapWith [], .int 1, rfl, rfl, by decide,
    exec_loadState_after _ _, by decide +kernel, exec_loadState_after _ _, by decide +kernel, exec_generate_after _ _,
    exec_generate_after _ _⟩
theorem witness_SetfreqSetsTheFrequencyFields :
    ∃ (s : State) (c : Chip) (ch fnum block : Nat), s.chip = some c ∧ c.st.regs.wf = true ∧ ch < 4 ∧ fnum < 2048 ∧ block < 8 :=
  ⟨stateW, chipW, 3, 2047, 7, rfl, by decide⟩
theorem witness_EveryStepKeepsTheStateLegal : ∃ s t : State, s.legal = true ∧ step s = .next t :=
  ⟨stateW, afterStep stateW, by decide, rfl⟩

end Sys2Proof.Tests
end

section
/-! PROOFS. What each operation and each step of the runner can do: one inversion lemma for `exec`, one for `step`, and the
equations of the operations that other proofs run. -/
namespace Sys2Proof.Machine

/-! ### Operations -/

/-- `s` after a WRITE of `v` to `a` on its chip `c` (rule R112). -/
def State.afterWrite (s : State) (c : Chip) (a v : Byte) : State :=
  (s.withChip (storeAtLatch v (latchAddress a c))).withReply .nothing

/-- `s` after `n` ticks of its chip `c` (rule R130). -/
def State.afterTicks (s : State) (c : Chip) (n : Nat) : State :=
  (s.withChip { c with st := (runTicks n c.st).2 }).withReply (.value (.frames (runTicks n c.st).1))

@[simp] theorem afterWrite_chip (s : State) (c : Chip) (a v : Byte) :
    (s.afterWrite c a v).chip = some (storeAtLatch v (latchAddress a c)) := rfl

@[simp] theorem afterTicks_chip (s : State) (c : Chip) (n : Nat) :
    (s.afterTicks c n).chip = some { c with st := (runTicks n c.st).2 } := rfl

@[simp] theorem afterTicks_reply (s : State) (c : Chip) (n : Nat) :
    (s.afterTicks c n).reply = .value (.frames (runTicks n c.st).1) := rfl

/-- What an operation issued to `s` can leave: the state `s` with an error as its result, or its effect, where its own
checks have passed. -/
inductive Effect (s : State) : Instr → State → Prop
  | raised (i : Instr) (e : Error) : Effect s i (s.withReply (.error e))
  | construct {clock : Arg} {hz : Nat} (hclock : checkClock .ref clock = some hz) :
      Effect s (.construct clock) ((s.withChip (freshChip hz)).withReply .nothing)
  | write {address value : Arg} {c : Chip} {a v : Byte} (hc : s.chip = some c) (ha : checkByte address = some a)
      (hv : checkByte value = some v) : Effect s (.write address value) (s.afterWrite c a v)
  | writeAddress {addr : Arg} {c : Chip} {a : Byte} (hc : s.chip = some c) (ha : checkByte addr = some a) :
      Effect s (.writeAddress addr) ((s.withChip (latchAddress a c)).withReply .nothing)
  | writeData {value : Arg} {c : Chip} {v : Byte} (hc : s.chip = some c) (hv : checkByte value = some v) :
      Effect s (.writeData value) ((s.withChip (storeAtLatch v c)).withReply .nothing)
  | generate {count : Arg} {c : Chip} {n : Nat} (hc : s.chip = some c) (hn : checkCount count = some n) :
      Effect s (.generate count) (s.afterTicks c n)
  | saveState {c : Chip} (hc : s.chip = some c) :
      Effect s .saveState (s.withReply (.value (.bytes (saveBytes c.family c.st))))
  | loadState {payload : List Byte} {c : Chip} (hc : s.chip = some c) (hp : snapshotFailure c.family payload = none) :
      Effect s (.loadState payload) ((s.withChip { c with st := loadBytes payload }).withReply .nothing)
  | reset {c : Chip} (hc : s.chip = some c) :
      Effect s .reset ((s.withChip { c with st := MutState.reset }).withReply .nothing)
  | readClock {c : Chip} (hc : s.chip = some c) : Effect s .readClock (s.withReply (.value (.integer c.clock)))
  | readSampleRate {c : Chip} (hc : s.chip = some c) :
      Effect s .readSampleRate (s.withReply (.value (.integer (sampleRate c))))
  | readOutputs {c : Chip} (hc : s.chip = some c) :
      Effect s .readOutputs (s.withReply (.value (.integer c.family.params.outputs)))

theorem Effect.of_raise {i : Instr} {kind : ErrorKind} {info : ErrorInfo} {s t : State}
    (h : raise kind info s = .next t) : Effect s i t := by
  obtain rfl := raise_next.1 h
  exact .raised i _

/-- An operation on a chip has its effect if it has it for the chip that is there. -/
theorem Effect.of_onChip {i : Instr} {s t : State} {f : Chip → Result} (h : onChip s f = .next t)
    (hf : ∀ c, s.chip = some c → f c = .next t → Effect s i t) : Effect s i t := by
  obtain ⟨-, rfl⟩ | ⟨c, hc, h⟩ := onChip_next h
  · exact .raised i _
  · exact hf c hc h

/-- Every operation that answers raises, or has its effect. -/
theorem effect_of_exec {i : Instr} {s t : State} (h : exec i s = .next t) : Effect s i t := by
  cases i with
  | construct clock =>
    simp only [exec, execConstruct] at h
    split at h
    · exact .of_raise h
    · next hclock => obtain rfl := finishWith_next.1 h; exact .construct hclock
  | write address value =>
    refine .of_onChip h fun c hc h => ?_
    split at h
    · exact .of_raise h
    · next ha =>
      split at h
      · exact .of_raise h
      · next hv => obtain rfl := finishWith_next.1 h; exact .write hc ha hv
  | writeAddress addr =>
    refine .of_onChip h fun c hc h => ?_
    split at h
    · split at h
      · exact .of_raise h
      · next ha => obtain rfl := finishWith_next.1 h; exact .writeAddress hc ha
    · exact .of_raise h
  | writeData value =>
    refine .of_onChip h fun c hc h => ?_
    split at h
    · split at h
      · exact .of_raise h
      · next hv => obtain rfl := finishWith_next.1 h; exact .writeData hc hv
    · exact .of_raise h
  | generate count =>
    refine .of_onChip h fun c hc h => ?_
    split at h
    · exact .of_raise h
    · next hn => obtain rfl := answer_next.1 h; exact .generate hc hn
  | saveState => exact .of_onChip h fun c hc h => by obtain rfl := answer_next.1 h; exact .saveState hc
  | loadState payload =>
    refine .of_onChip h fun c hc h => ?_
    split at h
    · exact .of_raise h
    · next hp => obtain rfl := finishWith_next.1 h; exact .loadState hc hp
  | reset => exact .of_onChip h fun c hc h => by obtain rfl := finishWith_next.1 h; exact .reset hc
  | readClock => exact .of_onChip h fun c hc h => by obtain rfl := answer_next.1 h; exact .readClock hc
  | readSampleRate => exact .of_onChip h fun c hc h => by obtain rfl := answer_next.1 h; exact .readSampleRate hc
  | readOutputs => exact .of_onChip h fun c hc h => by obtain rfl := answer_next.1 h; exact .readOutputs hc

/-- An integer in `0..255` is accepted as the byte of that value (rule R110). -/
theorem exists_checkByte {v : Int} (h0 : 0 ≤ v) (h1 : v ≤ 255) :
    ∃ b : Byte, checkByte (.int v) = some b ∧ (b.toNat : Int) = v :=
  ⟨_, checkByte_int h0 h1, by simp only [BitVec.toNat_ofNat]; omega⟩

theorem exec_write {s : State} {c : Chip} {address value : Arg} {a v : Byte} (hc : s.chip = some c)
    (ha : checkByte address = some a) (hv : checkByte value = some v) :
    exec (.write address value) s = .next (s.afterWrite c a v) := by
  simp only [exec, execWrite, onChip_some _ hc, ha, hv]; rfl

theorem exec_generate_none {s : State} {c : Chip} {count : Arg} (hc : s.chip = some c)
    (hn : checkCount count = none) :
    exec (.generate count) s = .next (s.withReply (.error ⟨.invalidArgument, .count⟩)) := by
  simp only [exec, execGenerate, onChip_some _ hc, hn]; rfl

theorem exec_generate_some {s : State} {c : Chip} {count : Arg} {n : Nat} (hc : s.chip = some c)
    (hn : checkCount count = some n) : exec (.generate count) s = .next (s.afterTicks c n) := by
  simp only [exec, execGenerate, onChip_some _ hc, hn]; rfl

/-! ### Steps of the runner -/

theorem performCommand_next {i : Instr} {n : Nat} {rest : List Byte} {s t : State}
    (h : performCommand i n rest s = .next t) : ∃ u, exec i s = .next u ∧ t = afterCommand n rest u := by
  unfold performCommand at h
  split at h
  · next u hu => exact ⟨u, hu, (Host.Outcome.next.inj h).symm⟩
  · cases h
  · cases h

/-- Everything a step can do: end the run at the end of the stream, end it at a command that does not decode, or perform
the command that does. -/
theorem step_next {s t : State} (h : step s = .next t) :
    s.status = .running ∧
    ((decodeOne s.stream = .done ∧ t = { s with status := .finished }) ∨
     (decodeOne s.stream = .reserved ∧ t = failRun ⟨.unsupported, .reservedOpcode⟩ s) ∨
     (decodeOne s.stream = .truncated ∧ t = failRun ⟨.invalidArgument, .truncated⟩ s) ∨
     ∃ i n rest u, decodeOne s.stream = .command i n rest ∧ exec i s = .next u ∧ t = afterCommand n rest u) := by
  unfold step runStep at h
  split at h
  · next hrun =>
    refine ⟨hrun, ?_⟩
    unfold runCommand at h
    split at h
    · next hd => exact .inl ⟨hd, (Host.Outcome.next.inj h).symm⟩
    · next hd => exact .inr (.inl ⟨hd, (Host.Outcome.next.inj h).symm⟩)
    · next hd => exact .inr (.inr (.inl ⟨hd, (Host.Outcome.next.inj h).symm⟩))
    · next i n rest hd =>
      obtain ⟨u, hu, ht⟩ := performCommand_next h
      exact .inr (.inr (.inr ⟨i, n, rest, u, hd, hu, ht⟩))
  · cases h
  · cases h

end Sys2Proof.Machine
end

section
/-! PROOFS. The legal states: what an operation answers is legal, and every step keeps a legal state legal (rules R21, R23,
R46, R138, R231). -/
namespace Sys2Proof.Machine

/-! ### Legal values -/

theorem clamp16_range (v : Int) : -32768 ≤ clamp16 v ∧ clamp16 v ≤ 32767 := by
  simp only [clamp16, clamp]; omega

/-- Every mix is clamped to 16 bits (rules R46, R215). -/
theorem mix_inRange (r : Memory) (c : Fin 4 → Int) : (mix r c).inRange = true := by
  simp [Frame.inRange, mix, scale, clamp16_range]

theorem runTicks_inRange (n : Nat) (m : MutState) : (runTicks n m).1.all Frame.inRange = true := by
  rw [List.all_eq_true]
  exact runTicks_frames (P := fun _ => True) (fun _ _ => trivial) (fun _ _ => mix_inRange _ _) n trivial

@[simp] theorem saveBytes_length (f : Family) (m : MutState) : (saveBytes f m).length = 333 := by
  simp [saveBytes, headerBytes, bankBytes, operatorBytes]

theorem sampleRate_pos {c : Chip} (h : 1 ≤ c.clock) : 1 ≤ sampleRate c := by
  have hdiv : c.family.params.div = 64 := by cases c.family; rfl
  rw [sampleRate, hdiv, ceilDiv]
  omega

theorem outputs_eq (f : Family) : f.params.outputs = 2 := by cases f; rfl

theorem checkClock_pos {f : Family} {clock : Arg} {hz : Nat} (h : checkClock f clock = some hz) : 1 ≤ hz := by
  cases f
  cases clock with
  | int v =>
    have hv : 1 ≤ v ∧ v.toNat = hz := by simpa [checkClock, Family.params] using h
    omega
  | nonInteger => cases h

/-! ### Legal chips -/

theorem Chip.legal_iff {c : Chip} : c.legal = true ↔ 1 ≤ c.clock ∧ c.st.regs.wf = true := by simp [Chip.legal]

theorem loadBytes_wf (b : List Byte) : (loadBytes b).regs.wf = true :=
  ofBytes_wf (by simp)

theorem latchAddress_legal {c : Chip} (a : Byte) (h : c.legal = true) : (latchAddress a c).legal = true := h

theorem storeAtLatch_legal {c : Chip} (v : Byte) (h : c.legal = true) : (storeAtLatch v c).legal = true := by
  obtain ⟨hclock, hwf⟩ := Chip.legal_iff.1 h
  exact Chip.legal_iff.2 ⟨hclock, write_wf _ _ hwf⟩

/-- A chip stays legal when its mutable state is replaced by one whose register file is canonical. -/
theorem Chip.legal_replace {c : Chip} {m : MutState} (h : c.legal = true) (hm : m.regs.wf = true) :
    Chip.legal { c with st := m } = true :=
  Chip.legal_iff.2 ⟨(Chip.legal_iff.1 h).1, hm⟩

/-! ### Legal states -/

theorem State.legal_iff {s : State} :
    s.legal = true ↔ s.chip.all Chip.legal = true ∧ s.reply.legal = true ∧ s.results.all Value.legal = true := by
  simp [State.legal, and_assoc]

theorem State.chip_legal {s : State} {c : Chip} (h : s.legal = true) (hc : s.chip = some c) : c.legal = true := by
  simpa [hc] using (State.legal_iff.1 h).1

theorem withReply_legal {s : State} {r : Reply} (h : s.legal = true) (hr : r.legal = true) :
    (s.withReply r).legal = true := by
  obtain ⟨hchip, -, hresults⟩ := State.legal_iff.1 h
  exact State.legal_iff.2 ⟨hchip, hr, hresults⟩

theorem withChip_legal {s : State} {c : Chip} (h : s.legal = true) (hc : c.legal = true) :
    (s.withChip c).legal = true := by
  obtain ⟨-, hreply, hresults⟩ := State.legal_iff.1 h
  exact State.legal_iff.2 ⟨by simpa using hc, hreply, hresults⟩

/-- Every operation keeps a legal state legal. -/
theorem exec_keeps_legal {i : Instr} {s t : State} (hs : s.legal = true) (h : exec i s = .next t) :
    t.legal = true := by
  have chip_legal {c : Chip} (hc : s.chip = some c) : c.legal = true := State.chip_legal hs hc
  cases effect_of_exec h with
  | raised => exact withReply_legal hs rfl
  | construct hclock =>
    exact withReply_legal (withChip_legal hs (Chip.legal_iff.2 ⟨checkClock_pos hclock, rfl⟩)) rfl
  | write hc =>
    exact withReply_legal (withChip_legal hs (storeAtLatch_legal _ (latchAddress_legal _ (chip_legal hc)))) rfl
  | writeAddress hc => exact withReply_legal (withChip_legal hs (latchAddress_legal _ (chip_legal hc))) rfl
  | writeData hc => exact withReply_legal (withChip_legal hs (storeAtLatch_legal _ (chip_legal hc))) rfl
  | @generate _ c n hc =>
    have hwf : (runTicks n c.st).2.regs.wf = true := by
      rw [runTicks_regs]; exact (Chip.legal_iff.1 (chip_legal hc)).2
    exact withReply_legal (withChip_legal hs (Chip.legal_replace (chip_legal hc) hwf)) (runTicks_inRange n c.st)
  | saveState => exact withReply_legal hs (by simp [Reply.legal, Value.legal])
  | loadState hc => exact withReply_legal (withChip_legal hs (Chip.legal_replace (chip_legal hc) (loadBytes_wf _))) rfl
  | reset hc => exact withReply_legal (withChip_legal hs (Chip.legal_replace (chip_legal hc) rfl)) rfl
  | readClock hc => exact withReply_legal hs (decide_eq_true (Chip.legal_iff.1 (chip_legal hc)).1)
  | readSampleRate hc =>
    exact withReply_legal hs (decide_eq_true (sampleRate_pos (Chip.legal_iff.1 (chip_legal hc)).1))
  | readOutputs => exact withReply_legal hs (by simp [Reply.legal, Value.legal, outputs_eq])

/-- The runner's bookkeeping keeps a legal state legal: the value it adds to the results is the legal reply's. -/
theorem afterCommand_legal {n : Nat} {rest : List Byte} {t : State} (h : t.legal = true) :
    (afterCommand n rest t).legal = true := by
  obtain ⟨hchip, hreply, hresults⟩ := State.legal_iff.1 h
  unfold afterCommand
  split
  · exact h
  · next v hv =>
    have hvalue : v.legal = true := by simpa [hv, Reply.legal] using hreply
    exact State.legal_iff.2 ⟨hchip, hreply, by simp [List.all_append, hresults, hvalue]⟩
  · exact h

/-- Settles O59: a step only ends the run, or performs an operation and the runner's bookkeeping. -/
theorem everyStepKeepsTheStateLegal : Obligations.EveryStepKeepsTheStateLegal := by
  intro s t hs h
  obtain ⟨-, ⟨-, rfl⟩ | ⟨-, rfl⟩ | ⟨-, rfl⟩ | ⟨i, n, rest, u, -, hu, rfl⟩⟩ := step_next h
  · exact hs
  · exact hs
  · exact hs
  · exact afterCommand_legal (exec_keeps_legal hs hu)

end Sys2Proof.Machine
end

section
/-! PROOFS. Which operations write which part of the chip: the configuration, the generator state, the registers and the
latch (rules R21, R23, R28, R116). -/
namespace Sys2Proof.Machine

/-- Settles O18: every effect but CONSTRUCT's keeps the clock and the family of the chip it finds. -/
theorem configurationIsFixedAfterConstruct : Obligations.ConfigurationIsFixedAfterConstruct := by
  intro i s t c hc hi h
  cases effect_of_exec h with
  | raised | saveState | readClock | readSampleRate | readOutputs => exact ⟨c, hc, rfl, rfl⟩
  | construct => exact absurd rfl (hi _)
  | write hc' | writeAddress hc' | writeData hc' | generate hc' | loadState hc' | reset hc' =>
    obtain rfl := Option.some.inj (hc.symm.trans hc')
    exact ⟨_, rfl, rfl, rfl⟩

/-- An operation that is no tick, no CONSTRUCT, no LOAD_STATE and no RESET keeps the generator state. -/
theorem exec_keeps_generator {i : Instr} {s t : State} {c d : Chip} (hc : s.chip = some c) (h : exec i s = .next t)
    (hd : t.chip = some d) (hgen : ∀ n, i ≠ .generate n) (hcon : ∀ a, i ≠ .construct a) (hload : ∀ b, i ≠ .loadState b)
    (hreset : i ≠ .reset) : d.st.ops = c.st.ops ∧ d.st.envTimer = c.st.envTimer ∧ d.st.lfo = c.st.lfo := by
  cases effect_of_exec h with
  | raised | saveState | readClock | readSampleRate | readOutputs =>
    obtain rfl := Option.some.inj (hc.symm.trans hd)
    exact ⟨rfl, rfl, rfl⟩
  | write hc' | writeAddress hc' | writeData hc' =>
    obtain rfl := Option.some.inj (hc.symm.trans hc')
    obtain rfl := Option.some.inj hd
    exact ⟨rfl, rfl, rfl⟩
  | generate => exact absurd rfl (hgen _)
  | construct => exact absurd rfl (hcon _)
  | loadState => exact absurd rfl (hload _)
  | reset => exact absurd rfl hreset

/-- A GENERATE keeps the registers and the latch, whether it runs its ticks or raises. -/
theorem exec_generate_keeps_registers {n : Arg} {s t : State} {c d : Chip} (hc : s.chip = some c)
    (h : exec (.generate n) s = .next t) (hd : t.chip = some d) : d.st.regs = c.st.regs ∧ d.st.latch = c.st.latch := by
  cases effect_of_exec h with
  | raised =>
    obtain rfl := Option.some.inj (hc.symm.trans hd)
    exact ⟨rfl, rfl⟩
  | generate hc' =>
    obtain rfl := Option.some.inj (hc.symm.trans hc')
    obtain rfl := Option.some.inj hd
    exact ⟨runTicks_regs _ _, runTicks_latch _ _⟩

/-- Settles O25, one lemma for each direction. -/
theorem onlyTicksAndReplacementsWriteGeneratorState : Obligations.OnlyTicksAndReplacementsWriteGeneratorState := by
  intro i s t c d hc h hd
  refine ⟨exec_keeps_generator hc h hd, ?_⟩
  rintro ⟨n, rfl⟩
  exact exec_generate_keeps_registers hc h hd

/-! ### Writes to one address -/

/-- A second write to an address replaces the first (rule R23). -/
theorem write_write_same {m : Memory} (hm : m.wf = true) (a v w : Byte) : (m.write a v).write a w = m.write a w := by
  refine memory_ext (write_wf _ _ (write_wf _ _ hm)) (write_wf _ _ hm) fun b => ?_
  rw [read_write (write_wf _ _ hm), read_write hm, read_write hm]
  split <;> rfl

/-- Writing the byte that an address already reads as changes nothing. -/
theorem write_read_same {m : Memory} (hm : m.wf = true) (a : Byte) : m.write a (m.read a.toNat) = m := by
  refine memory_ext (write_wf _ _ hm) hm fun b => ?_
  rw [read_write hm]
  split
  · next h => rw [h]
  · rfl

/-- Settles O23: the second WRITE finds the latch at its own address and replaces the byte of the first. -/
theorem lastWriteWins : Obligations.LastWriteWins := by
  intro s t c a v w hc hwf ha0 ha1 hv0 hv1 hw0 hw1 h
  obtain ⟨a, ha, -⟩ := exists_checkByte ha0 ha1
  obtain ⟨v, hv, -⟩ := exists_checkByte hv0 hv1
  obtain ⟨w, hw, -⟩ := exists_checkByte hw0 hw1
  obtain rfl := Host.Outcome.next.inj ((exec_write hc ha hv).symm.trans h)
  rw [exec_write (afterWrite_chip s c a v) ha hw, exec_write hc ha hw]
  simp [State.afterWrite, State.withChip, State.withReply, storeAtLatch, latchAddress, write_write_same hwf]

/-! ### The frequency fields -/

/-- Settles O58: the second WRITE is to another address, so both bytes are there at the end. -/
theorem setfreqSetsTheFrequencyFields : Obligations.SetfreqSetsTheFrequencyFields := by
  intro s c ch fnum block hc hwf hch hfnum hblock
  refine ⟨by simp [expandPseudo, pseudoInRange, pseudoCommands, writeCommand, hch, hfnum, hblock], ?_⟩
  obtain ⟨lowAddr, hla, elowAddr⟩ := exists_checkByte (v := 0x10 + ch) (by omega) (by omega)
  obtain ⟨low, hl, elow⟩ := exists_checkByte (v := fnum % 256) (by omega) (by omega)
  obtain ⟨highAddr, hha, ehighAddr⟩ := exists_checkByte (v := 0x14 + ch) (by omega) (by omega)
  obtain ⟨high, hh, ehigh⟩ := exists_checkByte (v := fnum / 256 + 8 * block) (by omega) (by omega)
  refine ⟨_, _, _, exec_write hc hla hl, exec_write (afterWrite_chip ..) hha hh, rfl, ?_⟩
  have hlowAddr : lowAddr.toNat = 0x10 + ch := by omega
  have hhighAddr : highAddr.toNat = 0x14 + ch := by omega
  have hne : 0x10 + ch ≠ 0x14 + ch := by omega
  simp only [storeAtLatch_regs, latchAddress_regs, latchAddress_latch, read_write (write_wf _ _ hwf), read_write hwf,
    hlowAddr, hhighAddr, if_true, if_neg hne]
  omega

end Sys2Proof.Machine
end

section
/-! PROOFS. What a tick reads of the register file (rules R30 to R42, R211): register files that agree there give the same
frames and the same generator state. -/
namespace Sys2Proof.Machine

/-! ### The fields a tick reads -/

/-- A tick reads the bits `hi:lo` of the register at `a` as they are: the fields of rules R31 to R40. ALG stands apart,
since a tick sees no more of it than EFFECTIVE_ALG (rule R211). -/
inductive FieldAt : (a hi lo : Nat) → Prop
  | rate : FieldAt 0x02 3 0
  | depth : FieldAt 0x02 7 4
  | mvol : FieldAt 0x03 7 0
  | fnumLow {ch : Nat} (h : ch < 4) : FieldAt (0x10 + ch) 7 0
  | fnumHigh {ch : Nat} (h : ch < 4) : FieldAt (0x14 + ch) 2 0
  | block {ch : Nat} (h : ch < 4) : FieldAt (0x14 + ch) 5 3
  | key (k : Fin 8) : FieldAt (0x20 + channelOf k) (k.val % 2) (k.val % 2)
  | len {ch : Nat} (h : ch < 4) : FieldAt (0x28 + ch) 4 4
  | ren {ch : Nat} (h : ch < 4) : FieldAt (0x28 + ch) 5 5
  | ar (k : Fin 8) : FieldAt (0x40 + k.val) 7 4
  | dr (k : Fin 8) : FieldAt (0x40 + k.val) 3 0
  | sl (k : Fin 8) : FieldAt (0x48 + k.val) 7 4
  | rr (k : Fin 8) : FieldAt (0x48 + k.val) 3 0
  | mul (k : Fin 8) : FieldAt (0x50 + k.val) 3 0
  | ws (k : Fin 8) : FieldAt (0x50 + k.val) 5 4
  | am (k : Fin 8) : FieldAt (0x50 + k.val) 6 6
  | tl (k : Fin 8) : FieldAt (0x58 + k.val) 6 0

/-- Two register files agree in all that a tick reads of them. -/
structure SoundsAlike (r r' : Memory) : Prop where
  fields : ∀ {a hi lo : Nat}, FieldAt a hi lo → r.field a hi lo = r'.field a hi lo
  alg : ∀ ch < 4, effectiveAlg (fieldAlg r ch) = effectiveAlg (fieldAlg r' ch)

theorem channelOf_lt (k : Fin 8) : channelOf k < 4 := by unfold channelOf; omega

/-- Bits 7:0 of a register are its byte. -/
theorem field_byte (r : Memory) (a : Nat) : r.field a 7 0 = (r.read a).toNat := by
  have := (r.read a).isLt
  simp only [Memory.field, bits]
  omega

/-! ### The stages of a tick -/

section
variable {r r' : Memory} (h : SoundsAlike r r')
include h

theorem keyEdge_congr : keyEdge r = keyEdge r' := by
  have key (k : Fin 8) : keyBit r k = keyBit r' k := by rw [keyBit, keyBit, h.fields (.key k)]
  funext k o
  rw [keyEdge, keyEdge, key]

theorem egUpdate_congr : egUpdate r = egUpdate r' := by
  funext k o
  have ar : fieldAr r k = fieldAr r' k := h.fields (.ar k)
  have dr : fieldDr r k = fieldDr r' k := h.fields (.dr k)
  have sl : fieldSl r k = fieldSl r' k := h.fields (.sl k)
  have rr : fieldRr r k = fieldRr r' k := h.fields (.rr k)
  simp only [egUpdate, egAttack, egDecay, egRelease, ar, dr, sl, rr]

theorem advancePhase_congr : advancePhase r = advancePhase r' := by
  funext k o
  have hch := channelOf_lt k
  have fnum : fieldFnum r (channelOf k) = fieldFnum r' (channelOf k) := by
    rw [fieldFnum, fieldFnum, h.fields (.fnumHigh hch), h.fields (.fnumLow hch)]
  have block : fieldBlock r (channelOf k) = fieldBlock r' (channelOf k) := h.fields (.block hch)
  have mul : fieldMul r k = fieldMul r' k := h.fields (.mul k)
  simp only [advancePhase, phaseStep, fnum, block, mul]

theorem advanceLfo_congr : advanceLfo r = advanceLfo r' := by
  have rate : fieldRate r = fieldRate r' := h.fields .rate
  funext lfo
  simp only [advanceLfo, rate]

theorem lfoAm_congr (lfo : BitVec 16) : lfoAm lfo r = lfoAm lfo r' := by
  have depth : fieldDepth r = fieldDepth r' := h.fields .depth
  simp only [lfoAm, depth]

theorem opOut_congr : opOut r = opOut r' := by
  funext k o p amount
  have ws : fieldWs r k = fieldWs r' k := h.fields (.ws k)
  have am : fieldAm r k = fieldAm r' k := h.fields (.am k)
  have tl : fieldTl r k = fieldTl r' k := h.fields (.tl k)
  simp only [opOut, modulatedAmplitude, amplitude, ws, am, tl]

theorem channelOut_congr : channelOut r = channelOut r' := by
  funext ops ch am
  simp only [channelOut, modulatorOut, carrierOut, opOut_congr h, h.alg ch.val ch.isLt]

theorem mix_congr : mix r = mix r' := by
  have mvol : fieldMvol r = fieldMvol r' := by
    rw [fieldMvol, fieldMvol, ← field_byte, ← field_byte, h.fields .mvol]
  have len (ch : Nat) (hch : ch < 4) : fieldLen r ch = fieldLen r' ch := h.fields (.len hch)
  have ren (ch : Nat) (hch : ch < 4) : fieldRen r ch = fieldRen r' ch := h.fields (.ren hch)
  funext c
  simp [mix, scale, leftSum, rightSum, mvol, len, ren]

end

/-! ### Ticks -/

/-- Two mutable states with the same generator state, whose register files agree in all that a tick reads. -/
structure MutState.TickAlike (m m' : MutState) : Prop where
  regs : SoundsAlike m.regs m'.regs
  ops : m.ops = m'.ops
  envTimer : m.envTimer = m'.envTimer
  lfo : m.lfo = m'.lfo

section
variable {m m' : MutState} (h : m.TickAlike m')
include h

theorem tickOperators_congr : tickOperators m = tickOperators m' := by
  simp only [tickOperators, h.ops, h.envTimer, keyEdge_congr h.regs, egUpdate_congr h.regs]

theorem tickFrame_congr : tickFrame m = tickFrame m' := by
  simp only [tickFrame, tickOperators_congr h, h.lfo, lfoAm_congr h.regs, mix_congr h.regs, channelOut_congr h.regs]

theorem tickNext_alike : (tickNext m).TickAlike (tickNext m') where
  regs := h.regs
  ops := by simp only [tickNext_ops, tickOperators_congr h, advancePhase_congr h.regs]
  envTimer := by simp only [tickNext_envTimer, h.envTimer]
  lfo := by simp only [tickNext_lfo, h.lfo, advanceLfo_congr h.regs]

end

/-- However many ticks follow, the frames are the same and the states stay alike. -/
theorem runTicks_alike (n : Nat) {m m' : MutState} (h : m.TickAlike m') :
    (runTicks n m).1 = (runTicks n m').1 ∧ (runTicks n m).2.TickAlike (runTicks n m').2 := by
  induction n generalizing m m' with
  | zero => exact ⟨rfl, h⟩
  | succ n ih =>
    obtain ⟨hframes, hstate⟩ := ih (tickNext_alike h)
    simp only [runTicks_succ, tickFrame_congr h, hframes, true_and]
    exact hstate

/-- GENERATE on two chips that are alike answers the same, raising or not, leaves them alike, and keeps the registers. -/
theorem exec_generate_alike {s s' t t' : State} {c c' : Chip} {n : Arg} (hc : s.chip = some c) (hc' : s'.chip = some c')
    (h : c.st.TickAlike c'.st) (ht : exec (.generate n) s = .next t) (ht' : exec (.generate n) s' = .next t') :
    t.reply = t'.reply ∧ ∃ d d', t.chip = some d ∧ t'.chip = some d' ∧ d.st.TickAlike d'.st ∧
      d.st.regs = c.st.regs ∧ d'.st.regs = c'.st.regs := by
  cases hn : checkCount n with
  | none =>
    rw [exec_generate_none hc hn] at ht
    rw [exec_generate_none hc' hn] at ht'
    obtain rfl := Host.Outcome.next.inj ht
    obtain rfl := Host.Outcome.next.inj ht'
    exact ⟨rfl, c, c', hc, hc', h, rfl, rfl⟩
  | some k =>
    rw [exec_generate_some hc hn] at ht
    rw [exec_generate_some hc' hn] at ht'
    obtain rfl := Host.Outcome.next.inj ht
    obtain rfl := Host.Outcome.next.inj ht'
    obtain ⟨hframes, hstate⟩ := runTicks_alike k h
    exact ⟨by simp [hframes], _, _, rfl, rfl, hstate, runTicks_regs _ _, runTicks_regs _ _⟩

end Sys2Proof.Machine
end

section
/-! PROOFS. Writes that no tick can tell apart: to an unmapped address (rule R41), and of bytes that differ in unused bits
only (rule R42). -/
namespace Sys2Proof.Machine

theorem field_write {m : Memory} (hm : m.wf = true) (a v : Byte) (b hi lo : Nat) :
    (m.write a v).field b hi lo = if b = a.toNat then bits v.toNat hi lo else m.field b hi lo := by
  rw [Memory.field, read_write hm, apply_ite BitVec.toNat, apply_ite (bits · hi lo)]
  rfl

/-- Two bytes that agree in the fields their register holds, and give the same algorithm if it holds ALG, leave register
files that sound alike. -/
theorem write_soundsAlike {m : Memory} (hm : m.wf = true) {a v w : Byte}
    (hfields : ∀ hi lo, FieldAt a.toNat hi lo → bits v.toNat hi lo = bits w.toNat hi lo)
    (halg : ∀ ch < 4, 0x28 + ch = a.toNat → effectiveAlg (bits v.toNat 2 0) = effectiveAlg (bits w.toNat 2 0)) :
    SoundsAlike (m.write a v) (m.write a w) where
  fields := by
    intro b hi lo hb
    rw [field_write hm, field_write hm]
    split
    · next hab => exact hfields hi lo (hab ▸ hb)
    · rfl
  alg := by
    intro ch hch
    rw [fieldAlg, fieldAlg, field_write hm, field_write hm]
    split
    · next hab => exact halg ch hch hab
    · rfl

/-- The addresses that hold a field. -/
theorem FieldAt.mapped {a hi lo : Nat} (h : FieldAt a hi lo) :
    a = 0x02 ∨ a = 0x03 ∨ (0x10 ≤ a ∧ a ≤ 0x17) ∨ (0x20 ≤ a ∧ a ≤ 0x23) ∨ (0x28 ≤ a ∧ a ≤ 0x2B) ∨
      (0x40 ≤ a ∧ a ≤ 0x5F) := by
  cases h with
  | key k => have := channelOf_lt k; omega
  | _ => omega

/-- A byte at an address that no field and no ALG is at is not heard (rule R41). -/
theorem soundsAlike_write_unmapped {m : Memory} (hm : m.wf = true) {a v : Byte}
    (hfields : ∀ hi lo, ¬ FieldAt a.toNat hi lo) (halg : ∀ ch < 4, 0x28 + ch ≠ a.toNat) :
    SoundsAlike m (m.write a v) := by
  have h : SoundsAlike (m.write a (m.read a.toNat)) (m.write a v) :=
    write_soundsAlike hm (fun hi lo hf => absurd hf (hfields hi lo)) (fun ch hch ha => absurd ha (halg ch hch))
  rwa [write_read_same hm] at h

/-- Bytes that differ only in the unused bits of FNUMH, KEY, CTRL, MULWS or TL agree in every field there. -/
theorem bits_eq_of_unused {a v w hi lo : Nat} (hf : FieldAt a hi lo)
    (h : (0x14 ≤ a ∧ a ≤ 0x17 ∧ v % 64 = w % 64) ∨ (0x20 ≤ a ∧ a ≤ 0x23 ∧ v % 4 = w % 4) ∨
      (0x28 ≤ a ∧ a ≤ 0x2B ∧ v % 8 = w % 8 ∧ v / 16 % 4 = w / 16 % 4) ∨
      (0x50 ≤ a ∧ a ≤ 0x5F ∧ v % 128 = w % 128)) : bits v hi lo = bits w hi lo := by
  cases hf with
  | rate | depth | mvol | fnumLow | ar | dr | sl | rr => omega
  | key k =>
    have hmod : v % 4 = w % 4 := by have := channelOf_lt k; omega
    obtain hk | hk := Nat.mod_two_eq_zero_or_one k.val <;> simp only [hk, bits] <;> omega
  | ren =>
    have hmod : v / 16 % 4 = w / 16 % 4 := by omega
    have hdiv (x : Nat) : x / 2 ^ 5 = x / 16 / 2 := by omega
    simp only [bits, hdiv]
    omega
  | fnumHigh | block | len | mul | ws | am | tl => simp only [bits]; omega

/-- Settles O26: an unmapped address holds nothing that a tick reads. -/
theorem unmappedWriteChangesNoFrame : Obligations.UnmappedWriteChangesNoFrame := by
  intro s t u w c a v n hc hwf ha hv0 hv1 ht hu hw
  obtain ⟨a, hca, rfl⟩ := exists_checkByte (v := a) (by omega) (by omega)
  obtain ⟨v, hcv, rfl⟩ := exists_checkByte hv0 hv1
  obtain rfl := Host.Outcome.next.inj ((exec_write hc hca hcv).symm.trans ht)
  have hsound : SoundsAlike c.st.regs (c.st.regs.write a v) :=
    soundsAlike_write_unmapped hwf (fun hi lo hf => by have := hf.mapped; omega) (fun ch hch => by omega)
  obtain ⟨hreply, d, e, hd, he, halike, -, hregs⟩ :=
    exec_generate_alike hc (afterWrite_chip s c a v) ⟨hsound, rfl, rfl, rfl⟩ hu hw
  refine ⟨hreply, d, e, hd, he, halike.ops, halike.envTimer, halike.lfo, ?_⟩
  simp [hregs, read_write hwf]

/-- Settles O27: the two bytes agree in every field, ALG among them, that their register holds. -/
theorem unusedRegisterBitsAreNeverHeard : Obligations.UnusedRegisterBitsAreNeverHeard := by
  intro s t t' u u' c a v w n hc hwf hv0 hv1 hw0 hw1 hunused ht ht' hu hu'
  obtain ⟨a, hca, rfl⟩ := exists_checkByte (v := a) (by omega) (by omega)
  obtain ⟨v, hcv, rfl⟩ := exists_checkByte hv0 hv1
  obtain ⟨w, hcw, rfl⟩ := exists_checkByte hw0 hw1
  obtain rfl := Host.Outcome.next.inj ((exec_write hc hca hcv).symm.trans ht)
  obtain rfl := Host.Outcome.next.inj ((exec_write hc hca hcw).symm.trans ht')
  have hsound : SoundsAlike (c.st.regs.write a v) (c.st.regs.write a w) := by
    norm_cast at hunused
    refine write_soundsAlike hwf (fun hi lo hf => bits_eq_of_unused hf hunused) fun ch hch hach => ?_
    have hmod : v.toNat % 8 = w.toNat % 8 := by omega
    simp [bits, hmod]
  obtain ⟨hreply, d, d', hd, hd', halike, hregs, hregs'⟩ :=
    exec_generate_alike (afterWrite_chip s c a v) (afterWrite_chip s c a w) ⟨hsound, rfl, rfl, rfl⟩ hu hu'
  refine ⟨hreply, d, d', hd, hd', halike.ops, halike.envTimer, halike.lfo, ?_, ?_⟩
  · simp [hregs, read_write hwf]
  · simp [hregs', read_write hwf]

end Sys2Proof.Machine
end

section
/-! PROOFS. The command stream's encoding (rules R81 to R98): which bytes are one complete command, that these are exactly
the encodings of the well-formed operations, and what the decoder returns for a whole stream. -/
namespace Sys2Proof

/-! ### Operand fields -/

theorem leBytes_operand {bs : List Byte} {off n : Nat} (h : off + n ≤ bs.length) :
    leBytes n (operand bs off n).field = (bs.drop off).take n := leBytes_memRead h

/-- The one operand field of a command is spelled by all the bytes behind the opcode. -/
theorem leBytes_operand_tail {op : Byte} {tl : List Byte} {n : Nat} (h : tl.length = n) :
    leBytes n (operand (op :: tl) 1 n).field = tl := by
  rw [leBytes_operand (by simp; omega), List.drop_succ_cons, List.drop_zero, List.take_of_length_le h.le]

theorem operand_fits (bs : List Byte) (off n : Nat) : (operand bs off n).fits (256 ^ n) = true := by
  have h := memRead_lt bs off n
  simp only [operand, Arg.nat, Arg.fits, Bool.and_eq_true, decide_eq_true_eq]
  exact ⟨Int.natCast_nonneg _, Int.ofNat_lt.2 h⟩

theorem memRead_append_left {bs post : List Byte} {off n : Nat} (h : off + n ≤ bs.length) :
    memRead (bs ++ post) off n = memRead bs off n := by
  rw [memRead, memRead, List.drop_append_of_le_length (by omega), List.take_append_of_le_length (by simp; omega)]

/-- A number below `256^n` is read back from its `n` bytes. -/
theorem memRead_leBytes {n v : Nat} (h : v < 256 ^ n) (pre post : List Byte) :
    memRead (pre ++ leBytes n v ++ post) pre.length n = v := by
  have hread := memRead_append (pre := pre) (mid := leBytes n v) (post := post)
  rwa [leBytes_length, leNat_leBytes, Nat.mod_eq_of_lt h] at hread

theorem operand_leBytes {a : Arg} {n : Nat} (h : a.fits (256 ^ n) = true) (pre post : List Byte) :
    operand (pre ++ leBytes n a.field ++ post) pre.length n = a := by
  cases a with
  | nonInteger => cases h
  | int v =>
    obtain ⟨h0, h1⟩ : 0 ≤ v ∧ v < Int.ofNat (256 ^ n) := by simpa [Arg.fits] using h
    rw [operand, Arg.field, memRead_leBytes ((Int.toNat_lt h0).2 h1), Arg.nat, Int.ofNat_eq_natCast, Int.toNat_of_nonneg h0]

/-- The operand of a command that has no other is read back from the bytes behind the opcode. -/
theorem operand_leBytes_tail {op : Byte} {a : Arg} {n : Nat} (h : a.fits (256 ^ n) = true) :
    operand (op :: leBytes n a.field) 1 n = a := by
  simpa using operand_leBytes h [op] []

/-! ### Formats -/

/-- Rule R82's table, read by format. -/
def Format.opcodes : Format → List Nat
  | .f1 => [0x06, 0x08, 0x09, 0x0A, 0x0B]
  | .f2 => [0x03, 0x04]
  | .f3 => [0x02]
  | .f5 => [0x01, 0x05]
  | .fv => [0x07]

theorem formatOf_eq_some {n : Nat} {f : Format} : formatOf n = some f ↔ n ∈ f.opcodes := by
  constructor
  · intro h
    unfold formatOf at h
    split at h <;> cases h <;> simp [Format.opcodes]
  · cases f <;> simp +contextual [Format.opcodes, formatOf, or_imp]

/-! ### Complete commands -/

/-- The bytes are one complete command, no more and no less, and spell the operation (rules R83 to R94). -/
inductive Spells : List Byte → Instr → Prop
  | intro {op : Byte} {tl : List Byte} {f : Format} {i : Instr} (hformat : formatOf op.toNat = some f)
      (hlength : commandLength f (op :: tl) = some (tl.length + 1)) (hcommand : commandOf op.toNat (op :: tl) = some i) :
      Spells (op :: tl) i

/-- The length of an FV command: its opcode, two length bytes, and the payload whose length they give (rules R89, R94). -/
theorem commandLength_fv {op : Byte} {tl : List Byte} {n : Nat} :
    commandLength .fv (op :: tl) = some n ↔ 2 ≤ tl.length ∧ n = 3 + memRead (op :: tl) 1 2 := by
  simp only [commandLength, List.length_cons, Option.ite_none_left_eq_some, Option.some.injEq]
  omega

/-- An FV command is short of bytes where its length bytes end early, or its payload does (rule R96). -/
theorem commandLength_fv_short {op : Byte} {tl : List Byte} :
    (∀ n, commandLength .fv (op :: tl) = some n → tl.length + 1 < n) ↔
      tl.length < 2 ∨ tl.length < 2 + leNat (tl.take 2) := by
  have hread : memRead (op :: tl) 1 2 = leNat (tl.take 2) := rfl
  simp only [commandLength_fv, hread]
  constructor
  · intro h
    by_contra hlong
    have hshort := h _ ⟨by omega, rfl⟩
    omega
  · rintro h n ⟨htwo, rfl⟩
    omega

theorem spells_encode {i : Instr} (h : i.wellFormed = true) : Spells (encode i) i := by
  cases i with
  | construct clock =>
    exact .intro (f := .f5) rfl (by simp [commandLength]) (by simp [commandOf, operand_leBytes_tail (n := 4) h])
  | write address value =>
    obtain ⟨ha, hv⟩ := Bool.and_eq_true_iff.1 h
    have haddress := operand_leBytes (n := 1) ha [0x02#8] (leBytes 1 value.field)
    have hvalue := operand_leBytes (n := 1) hv (0x02#8 :: leBytes 1 address.field) []
    exact .intro (f := .f3) rfl (by simp [commandLength]) (by simpa [commandOf] using ⟨haddress, hvalue⟩)
  | writeAddress addr =>
    exact .intro (f := .f2) rfl (by simp [commandLength]) (by simp [commandOf, operand_leBytes_tail (n := 1) h])
  | writeData value =>
    exact .intro (f := .f2) rfl (by simp [commandLength]) (by simp [commandOf, operand_leBytes_tail (n := 1) h])
  | generate n =>
    exact .intro (f := .f5) rfl (by simp [commandLength]) (by simp [commandOf, operand_leBytes_tail (n := 4) h])
  | loadState payload =>
    have hlen : memRead (0x07#8 :: (leBytes 2 payload.length ++ payload)) 1 2 = payload.length :=
      memRead_leBytes (n := 2) (of_decide_eq_true h) [0x07#8] payload
    exact .intro (f := .fv) rfl (commandLength_fv.2 ⟨by simp, by rw [hlen]; simp; omega⟩) rfl
  | saveState | reset | readClock | readSampleRate | readOutputs => exact .intro (f := .f1) rfl rfl rfl

/-- The bytes of a complete command are the operation's encoding, for its operand fields are its only free bytes. -/
theorem Spells.eq_encode {cmd : List Byte} {i : Instr} (h : Spells cmd i) : i.wellFormed = true ∧ cmd = encode i := by
  obtain @⟨op, tl, f, _, hformat, hlength, hcommand⟩ := h
  have hop {n : Nat} (hn : op.toNat = n) : op = BitVec.ofNat 8 n := by simp [← hn]
  have hmem := formatOf_eq_some.1 hformat
  cases f <;> simp only [Format.opcodes, List.mem_cons, List.not_mem_nil, or_false] at hmem
  case f1 =>
    obtain rfl : tl = [] := by simpa [commandLength] using hlength
    obtain hn | hn | hn | hn | hn := hmem <;> obtain rfl := hop hn <;> cases hcommand <;> exact ⟨rfl, rfl⟩
  case f2 =>
    have htl : tl.length = 1 := by simpa [commandLength, eq_comm] using hlength
    have hfits : (operand (op :: tl) 1 1).fits 256 = true := operand_fits _ 1 1
    obtain hn | hn := hmem <;> obtain rfl := hop hn <;> cases hcommand <;>
      exact ⟨hfits, by rw [encode, leBytes_operand_tail htl]⟩
  case f3 =>
    have htl : tl.length = 2 := by simpa [commandLength, eq_comm] using hlength
    obtain ⟨a, v, rfl⟩ := List.length_eq_two.1 htl
    have hfits (off : Nat) : (operand [op, a, v] off 1).fits 256 = true := operand_fits _ off 1
    obtain rfl := hop hmem
    cases hcommand
    exact ⟨by simp [Instr.wellFormed, hfits], by simp [encode, leBytes_operand]⟩
  case f5 =>
    have htl : tl.length = 4 := by simpa [commandLength, eq_comm] using hlength
    have hfits : (operand (op :: tl) 1 4).fits 4294967296 = true := operand_fits _ 1 4
    obtain hn | hn := hmem <;> obtain rfl := hop hn <;> cases hcommand <;>
      exact ⟨hfits, by rw [encode, leBytes_operand_tail htl]⟩
  case fv =>
    obtain ⟨htwo, hlen⟩ := commandLength_fv.1 hlength
    have hpayload : (tl.drop 2).length = memRead (op :: tl) 1 2 := by rw [List.length_drop]; omega
    obtain rfl := hop hmem
    cases hcommand
    refine ⟨decide_eq_true (hpayload.trans_lt (memRead_lt _ 1 2)), ?_⟩
    rw [List.drop_succ_cons, encode, hpayload, leBytes_memRead (by simp; omega)]
    simp

theorem encode_length (i : Instr) : (encode i).length = i.byteLength := by
  cases i with
  | construct clock => exact Laws.EncodedLength.construct clock
  | write address value => exact Laws.EncodedLength.write address value
  | writeAddress addr => exact Laws.EncodedLength.writeAddress addr
  | writeData value => exact Laws.EncodedLength.writeData value
  | generate n => exact Laws.EncodedLength.generate n
  | loadState payload => exact Laws.EncodedLength.loadState payload
  | saveState | reset | readClock | readSampleRate | readOutputs => rfl

/-! ### The head of a stream -/

theorem commandLength_pos {f : Format} {bs : List Byte} {n : Nat} (h : commandLength f bs = some n) : 0 < n := by
  cases f <;> simp only [commandLength, Option.ite_none_left_eq_some, Option.some.injEq] at h <;> omega

/-- A command's length is told by its own bytes, whatever follows them. -/
theorem commandLength_append {f : Format} {cmd rest : List Byte} :
    commandLength f (cmd ++ rest) = some cmd.length ↔ commandLength f cmd = some cmd.length := by
  cases f with
  | f1 | f2 | f3 | f5 => rfl
  | fv =>
    simp only [commandLength, List.length_append, Option.ite_none_left_eq_some, Option.some.injEq]
    by_cases hthree : 3 ≤ cmd.length
    · rw [memRead_append_left (by omega)]
      omega
    · omega

/-- Every opcode with a format spells an operation. -/
theorem exists_commandOf {n : Nat} {f : Format} (h : formatOf n = some f) (cmd : List Byte) :
    ∃ i, commandOf n cmd = some i :=
  Option.isSome_iff_exists.1 ((commandOf_isSome n cmd).2 (by simp [h]))

theorem decodeOne_reserved {op : Byte} (h : formatOf op.toNat = none) (tl : List Byte) :
    decodeOne (op :: tl) = .reserved := by
  simp [decodeOne, h]

theorem decodeOne_truncated {op : Byte} {tl : List Byte} {f : Format} (hformat : formatOf op.toNat = some f)
    (hshort : ∀ n, commandLength f (op :: tl) = some n → tl.length + 1 < n) : decodeOne (op :: tl) = .truncated := by
  cases hlength : commandLength f (op :: tl) with
  | none => simp [decodeOne, hformat, hlength]
  | some n => simp [decodeOne, hformat, hlength, hshort n hlength]

theorem decodeOne_spells {cmd : List Byte} {i : Instr} (h : Spells cmd i) (rest : List Byte) :
    decodeOne (cmd ++ rest) = .command i cmd.length rest := by
  obtain ⟨hformat, hlength, hcommand⟩ := h
  have hlength := commandLength_append (rest := rest) |>.2 hlength
  rw [List.cons_append] at hlength ⊢
  simp [decodeOne, hformat, hlength, hcommand]

/-- What stands at the head of a stream that is not empty (rules R94 to R97). -/
inductive Head (op : Byte) (tl : List Byte) : Decoded → Prop
  | reserved (hformat : formatOf op.toNat = none) : Head op tl .reserved
  | truncated {f : Format} (hformat : formatOf op.toNat = some f)
      (hshort : ∀ n, commandLength f (op :: tl) = some n → tl.length + 1 < n) : Head op tl .truncated
  | command {cmd rest : List Byte} {i : Instr} (hcmd : Spells cmd i) (hstream : op :: tl = cmd ++ rest) :
      Head op tl (.command i cmd.length rest)

theorem head_decodeOne (op : Byte) (tl : List Byte) : Head op tl (decodeOne (op :: tl)) := by
  cases hformat : formatOf op.toNat with
  | none => exact decodeOne_reserved hformat tl ▸ .reserved hformat
  | some f =>
    by_cases hshort : ∀ n, commandLength f (op :: tl) = some n → tl.length + 1 < n
    · exact decodeOne_truncated hformat hshort ▸ .truncated hformat hshort
    · push Not at hshort
      obtain ⟨n, hlength, hle⟩ := hshort
      obtain ⟨m, rfl⟩ : ∃ m, n = m + 1 := Nat.exists_eq_add_one.2 (commandLength_pos hlength)
      obtain ⟨cmd, rest, rfl, rfl⟩ : ∃ cmd rest, tl = cmd ++ rest ∧ cmd.length = m :=
        ⟨tl.take m, tl.drop m, (List.take_append_drop _ _).symm, by rw [List.length_take]; omega⟩
      obtain ⟨i, hcommand⟩ := exists_commandOf hformat (op :: cmd)
      have hcmd : Spells (op :: cmd) i := .intro hformat (commandLength_append.1 hlength) hcommand
      exact decodeOne_spells hcmd rest ▸ .command hcmd rfl

theorem decodeOne_eq_reserved {op : Byte} {tl : List Byte} :
    decodeOne (op :: tl) = .reserved ↔ formatOf op.toNat = none := by
  refine ⟨fun h => ?_, fun h => decodeOne_reserved h tl⟩
  cases h ▸ head_decodeOne op tl with
  | reserved hformat => exact hformat

theorem decodeOne_eq_truncated {op : Byte} {tl : List Byte} :
    decodeOne (op :: tl) = .truncated ↔
      ∃ f, formatOf op.toNat = some f ∧ ∀ n, commandLength f (op :: tl) = some n → tl.length + 1 < n := by
  refine ⟨fun h => ?_, fun ⟨f, hformat, hshort⟩ => decodeOne_truncated hformat hshort⟩
  cases h ▸ head_decodeOne op tl with
  | truncated hformat hshort => exact ⟨_, hformat, hshort⟩

theorem decodeOne_eq_done {stream : List Byte} : decodeOne stream = .done ↔ stream = [] := by
  refine ⟨fun h => ?_, fun h => h ▸ rfl⟩
  cases stream with
  | nil => rfl
  | cons op tl => cases h ▸ head_decodeOne op tl

theorem decodeOne_eq_command {stream rest : List Byte} {i : Instr} {n : Nat} :
    decodeOne stream = .command i n rest ↔ i.wellFormed = true ∧ n = i.byteLength ∧ stream = encode i ++ rest := by
  rw [← encode_length]
  constructor
  · intro h
    cases stream with
    | nil => cases h
    | cons op tl =>
      cases h ▸ head_decodeOne op tl with
      | command hcmd hstream =>
        obtain ⟨hwf, rfl⟩ := hcmd.eq_encode
        exact ⟨hwf, rfl, hstream⟩
  · rintro ⟨hwf, rfl, rfl⟩
    exact decodeOne_spells (spells_encode hwf) rest

/-- Settles O1: the encoding of a well-formed operation is the complete command that spells it. -/
theorem decodeOfEncodeIsTheOperation : Obligations.DecodeOfEncodeIsTheOperation := by
  intro i rest hwf
  exact decodeOne_eq_command.2 ⟨hwf, rfl, rfl⟩

/-- Settles O2: a complete command is the encoding of the operation it spells. -/
theorem encodeOfDecodeIsTheBytes : Obligations.EncodeOfDecodeIsTheBytes := by
  intro stream rest i n h
  exact decodeOne_eq_command.1 h

/-! ### Whole streams -/

theorem encode_length_pos (i : Instr) : 0 < (encode i).length := by
  cases i <;> exact Nat.zero_lt_succ _

/-- What stands where the decoder stops, and the verdict it returns there: the end of the stream, or a bad command at
offset `o` (rules R95 to R97). -/
inductive StopsAt (o : Nat) : List Byte → Option Verdict → Prop
  | finished : StopsAt o [] none
  | reserved {tail : List Byte} (h : decodeOne tail = .reserved) : StopsAt o tail (some (.reserved o))
  | truncated {tail : List Byte} (h : decodeOne tail = .truncated) : StopsAt o tail (some (.truncated o))

/-- With fuel for every byte, the decoder returns the operations whose encodings the stream begins with, and stops after
them. -/
theorem decodeFrom_spec {fuel : Nat} (o : Nat) {stream : List Byte} (h : stream.length < fuel) :
    ∃ (l : List Instr) (tail : List Byte), (∀ i ∈ l, i.wellFormed = true) ∧ stream = l.flatMap encode ++ tail ∧
      (decodeFrom fuel o stream).1.map Prod.snd = l ∧
      StopsAt (o + (l.flatMap encode).length) tail (decodeFrom fuel o stream).2 := by
  induction fuel generalizing o stream with
  | zero => omega
  | succ fuel ih =>
    rw [decodeFrom]
    cases hd : decodeOne stream with
    | done =>
      obtain rfl := decodeOne_eq_done.1 hd
      exact ⟨[], [], by simp, rfl, rfl, .finished⟩
    | reserved => exact ⟨[], stream, by simp, rfl, rfl, .reserved hd⟩
    | truncated => exact ⟨[], stream, by simp, rfl, rfl, .truncated hd⟩
    | command i n rest =>
      obtain ⟨hwf, rfl, rfl⟩ := decodeOne_eq_command.1 hd
      have hfuel : rest.length < fuel := by
        have hpos := encode_length_pos i
        rw [List.length_append] at h
        omega
      obtain ⟨l, tail, hl, rfl, hops, hstop⟩ := ih (o + i.byteLength) hfuel
      have hoffset : o + ((i :: l).flatMap encode).length = o + i.byteLength + (l.flatMap encode).length := by
        simp [encode_length, Nat.add_assoc]
      exact ⟨i :: l, tail, List.forall_mem_cons.2 ⟨hwf, hl⟩, by simp, congrArg (i :: ·) hops, hoffset ▸ hstop⟩

/-- Settles O5: the decoder from offset 0, with fuel for every byte. -/
theorem decoderReturnsCommandsThenVerdict : Obligations.DecoderReturnsCommandsThenVerdict := by
  intro stream
  obtain ⟨l, tail, hl, hstream, hops, hstop⟩ := decodeFrom_spec 0 (Nat.lt_succ_self stream.length)
  refine ⟨l, tail, hl, hstream, hops, ?_⟩
  rw [Nat.zero_add] at hstop
  rw [decodeStream]
  generalize (decodeFrom (stream.length + 1) 0 stream).2 = verdict at hstop ⊢
  cases hstop with
  | finished => exact .inl ⟨rfl, rfl⟩
  | reserved hd => exact .inr (.inl ⟨hd, rfl⟩)
  | truncated hd => exact .inr (.inr ⟨hd, rfl⟩)

/-- Settles O6 by running the decoder on each of the words. -/
theorem writtenOutWordsDecode : Obligations.WrittenOutWordsDecode := by
  unfold Obligations.WrittenOutWordsDecode
  decide

end Sys2Proof
end

section
/-! PROOFS. What a step of the runner does with the command at the head of its stream: a command that does not decode ends
the run (rules R95, R96, R270), and one that does is performed (rule R269). -/
namespace Sys2Proof.Machine

/-! ### Commands that do not decode -/

theorem step_reserved {s : State} (hrun : s.status = .running) (hd : decodeOne s.stream = .reserved) :
    step s = .next (failRun ⟨.unsupported, .reservedOpcode⟩ s) := by
  simp only [step, runStep, hrun, runCommand, hd]

theorem step_truncated {s : State} (hrun : s.status = .running) (hd : decodeOne s.stream = .truncated) :
    step s = .next (failRun ⟨.invalidArgument, .truncated⟩ s) := by
  simp only [step, runStep, hrun, runCommand, hd]

theorem decodeOne_reserved_iff_opcode {op : Byte} {rest : List Byte} :
    decodeOne (op :: rest) = .reserved ↔ op.toNat = 0x00 ∨ 0x0C ≤ op.toNat := by
  rw [decodeOne_eq_reserved, ← Option.not_isSome_iff_eq_none, formatOf_isSome]
  omega

/-- Settles O3: the reserved opcodes are those without a format, and a step at one fails the run. -/
theorem reservedOpcodesAreUnsupported : Obligations.ReservedOpcodesAreUnsupported := by
  refine ⟨fun op rest => decodeOne_reserved_iff_opcode, fun s op rest hrun hstream hop => ?_⟩
  exact step_reserved hrun (hstream ▸ decodeOne_reserved_iff_opcode.2 hop)

/-- Settles O4: an opcode's format tells how many bytes must follow it, and a step where they do not fails the run. -/
theorem truncatedCommandsAreInvalidArgument : Obligations.TruncatedCommandsAreInvalidArgument := by
  refine ⟨fun op rest => ?_, fun s hrun hd => step_truncated hrun hd⟩
  simp only [decodeOne_eq_truncated, formatOf_eq_some]
  constructor
  · rintro ⟨f, hop, hshort⟩
    cases f <;> simp only [Format.opcodes, List.mem_cons, List.not_mem_nil, or_false] at hop
    case fv => exact .inr (.inr (.inr ⟨hop, commandLength_fv_short.1 hshort⟩))
    all_goals
      have hlen := hshort _ rfl
      omega
  · rintro (⟨hop, hlen⟩ | ⟨hop, hlen⟩ | ⟨hop, hlen⟩ | ⟨hop, hlen⟩)
    · exact ⟨.f2, by simpa [Format.opcodes] using hop, by simp only [commandLength, Option.some.injEq]; omega⟩
    · exact ⟨.f3, by simpa [Format.opcodes] using hop, by simp only [commandLength, Option.some.injEq]; omega⟩
    · exact ⟨.f5, by simpa [Format.opcodes] using hop, by simp only [commandLength, Option.some.injEq]; omega⟩
    · exact ⟨.fv, by simpa [Format.opcodes] using hop, commandLength_fv_short.2 hlen⟩

/-! ### Commands that decode -/

theorem onChip_total (s : State) {f : Chip → Result} (h : ∀ c, ∃ t, f c = .next t) : ∃ t, onChip s f = .next t := by
  cases hc : s.chip with
  | none => exact ⟨_, onChip_none f hc⟩
  | some c => rw [onChip_some f hc]; exact h c

/-- Every operation answers within the call: none faults and none is refused. -/
theorem exec_total (i : Instr) (s : State) : ∃ t, exec i s = .next t := by
  cases i with
  | construct clock =>
    simp only [exec, execConstruct]
    split <;> exact ⟨_, rfl⟩
  | write address value =>
    refine onChip_total s fun c => ?_
    split
    · exact ⟨_, rfl⟩
    · split <;> exact ⟨_, rfl⟩
  | writeAddress | writeData =>
    refine onChip_total s fun c => ?_
    split
    · split <;> exact ⟨_, rfl⟩
    · exact ⟨_, rfl⟩
  | generate | loadState =>
    refine onChip_total s fun c => ?_
    split <;> exact ⟨_, rfl⟩
  | saveState | reset | readClock | readSampleRate | readOutputs => exact onChip_total s fun c => ⟨_, rfl⟩

theorem step_command {s t : State} {i : Instr} {n : Nat} {rest : List Byte} (hrun : s.status = .running)
    (hd : decodeOne s.stream = .command i n rest) (ht : exec i s = .next t) : step s = .next (afterCommand n rest t) := by
  simp only [step, runStep, hrun, runCommand, hd, performCommand, ht]

/-- Settles O7: the operation answers, and the step passes on from its answer. -/
theorem stepPerformsTheDecodedOperation : Obligations.StepPerformsTheDecodedOperation := by
  intro s i n rest hrun hd
  obtain ⟨t, ht⟩ := exec_total i s
  exact ⟨t, ht, step_command hrun hd ht⟩

end Sys2Proof.Machine
end

section
/-! PROOFS. The register interface (rules R110 to R114): what WRITE, WRITE_ADDRESS and WRITE_DATA answer on a chip, in range
and out of range, and that the split form of a write is the single form. -/
namespace Sys2Proof.Machine

/-! ### The answers of the three operations -/

/-- Every family of the spec has split writes, so rule R117's Unsupported is never raised. -/
@[simp] theorem params_splitWrite (f : Family) : f.params.splitWrite = true := by cases f; rfl

section
variable {s : State} {c : Chip} (hc : s.chip = some c) {address value : Arg} {a v : Byte}
include hc

theorem exec_write_badAddress (ha : checkByte address = none) :
    exec (.write address value) s = .next (s.withReply (.error ⟨.invalidArgument, .address⟩)) := by
  simp only [exec, execWrite, onChip_some _ hc, ha, raise]

theorem exec_write_badValue (ha : checkByte address = some a) (hv : checkByte value = none) :
    exec (.write address value) s = .next (s.withReply (.error ⟨.invalidArgument, .value⟩)) := by
  simp only [exec, execWrite, onChip_some _ hc, ha, hv, raise]

theorem exec_writeAddress (ha : checkByte address = some a) :
    exec (.writeAddress address) s = .next ((s.withChip (latchAddress a c)).withReply .nothing) := by
  simp only [exec, execWriteAddress, onChip_some _ hc, params_splitWrite, if_true, ha, finishWith]

theorem exec_writeAddress_badAddress (ha : checkByte address = none) :
    exec (.writeAddress address) s = .next (s.withReply (.error ⟨.invalidArgument, .address⟩)) := by
  simp only [exec, execWriteAddress, onChip_some _ hc, params_splitWrite, if_true, ha, raise]

theorem exec_writeData (hv : checkByte value = some v) :
    exec (.writeData value) s = .next ((s.withChip (storeAtLatch v c)).withReply .nothing) := by
  simp only [exec, execWriteData, onChip_some _ hc, params_splitWrite, if_true, hv, finishWith]

theorem exec_writeData_badValue (hv : checkByte value = none) :
    exec (.writeData value) s = .next (s.withReply (.error ⟨.invalidArgument, .value⟩)) := by
  simp only [exec, execWriteData, onChip_some _ hc, params_splitWrite, if_true, hv, raise]

end

/-- Rule R114: a WRITE_DATA after a WRITE_ADDRESS finds the latch set, and ends where the WRITE does. -/
theorem exec_writeData_after_writeAddress {s : State} {c : Chip} {value : Arg} {a v : Byte}
    (hv : checkByte value = some v) :
    exec (.writeData value) ((s.withChip (latchAddress a c)).withReply .nothing) = .next (s.afterWrite c a v) :=
  exec_writeData rfl hv

/-! ### The register a write stores -/

theorem toNat_byte {v : Int} (h0 : 0 ≤ v) (h1 : v ≤ 255) : (BitVec.ofNat 8 v.toNat).toNat = v.toNat := by
  simp only [BitVec.toNat_ofNat]; omega

/-- Storing a value in range keeps the canonical form, reads back as that value, and leaves every other address as it was
(rule R23). -/
theorem write_value_spec {m : Memory} (hm : m.wf = true) (a : Byte) {v : Int} (h0 : 0 ≤ v) (h1 : v ≤ 255) :
    (m.write a (BitVec.ofNat 8 v.toNat)).wf = true ∧
    ((m.write a (BitVec.ofNat 8 v.toNat)).read a.toNat).toNat = v.toNat ∧
    ∀ b, b ≠ a.toNat → (m.write a (BitVec.ofNat 8 v.toNat)).read b = m.read b :=
  ⟨write_wf a _ hm, by rw [read_write hm, if_pos rfl, toNat_byte h0 h1], fun b hb => by rw [read_write hm, if_neg hb]⟩

/-! ### The obligations -/

/-- Settles O19: the write in range stores through `write_value_spec`; each refusal is the answer of its failing check. -/
theorem writeStoresTheByteAndSetsTheLatch : Obligations.WriteStoresTheByteAndSetsTheLatch := by
  refine ⟨fun s c a v hc hwf ha0 ha1 hv0 hv1 => ?_, fun s c a v hc ha => exec_write_badAddress hc (checkByte_none.2 ha),
    fun s c a v hc ha0 ha1 hv => exec_write_badValue hc (checkByte_int ha0 ha1) (checkByte_none.2 hv)⟩
  have hstored := write_value_spec hwf (BitVec.ofNat 8 a.toNat) hv0 hv1
  rw [toNat_byte ha0 ha1] at hstored
  exact ⟨_, exec_write hc (checkByte_int ha0 ha1) (checkByte_int hv0 hv1), hstored⟩

/-- Settles O20: the two answers of WRITE_ADDRESS. -/
theorem writeAddressSetsOnlyTheLatch : Obligations.WriteAddressSetsOnlyTheLatch :=
  ⟨fun _ _ _ hc ha0 ha1 => exec_writeAddress hc (checkByte_int ha0 ha1),
    fun _ _ _ hc ha => exec_writeAddress_badAddress hc (checkByte_none.2 ha)⟩

/-- Settles O21: the write in range stores through `write_value_spec` at the latch; the refusal is the answer of its check. -/
theorem writeDataStoresAtTheLatch : Obligations.WriteDataStoresAtTheLatch :=
  ⟨fun _ c _ hc hwf hv0 hv1 => ⟨_, exec_writeData hc (checkByte_int hv0 hv1), write_value_spec hwf c.st.latch hv0 hv1⟩,
    fun _ _ _ hc hv => exec_writeData_badValue hc (checkByte_none.2 hv)⟩

/-- Settles O22: in range the split form ends where WRITE does; out of range each form is refused by its failing check. -/
theorem splitWriteEqualsWrite : Obligations.SplitWriteEqualsWrite := by
  refine ⟨fun s c a v hc ha0 ha1 hv0 hv1 => ?_, fun s c a v hc ha => ?_, fun s c a v hc ha0 ha1 hv => ?_⟩
  · have ha := checkByte_int ha0 ha1
    have hv := checkByte_int hv0 hv1
    exact ⟨_, _, exec_writeAddress hc ha, exec_writeData_after_writeAddress hv, exec_write hc ha hv⟩
  · have ha := checkByte_none.2 ha
    exact ⟨exec_writeAddress_badAddress hc ha, exec_write_badAddress hc ha⟩
  · have ha := checkByte_int ha0 ha1
    have hv := checkByte_none.2 hv
    exact ⟨exec_write_badValue hc ha hv, _, exec_writeAddress hc ha, rfl, exec_writeData_badValue rfl hv⟩

end Sys2Proof.Machine
end

section
/-! PROOFS. The sequencer (rules R130 to R140): GENERATE as iterated ticks, the counters that a tick advances, and the
stages of one tick, seen in each operator and in the frame. -/
namespace Sys2Proof.Machine

/-! ### Operations and the runner -/

/-- An operation touches the chip and the reply only; the other fields are the runner's (rule R269). -/
theorem exec_keeps_runner {i : Instr} {s t : State} (h : exec i s = .next t) :
    t.stream = s.stream ∧ t.offset = s.offset ∧ t.results = s.results ∧ t.status = s.status := by
  cases effect_of_exec h <;> exact ⟨rfl, rfl, rfl, rfl⟩

/-- Settles O11: every operation answers, and whichever effect it has leaves the runner's fields. -/
theorem everyOperationAnswersWithinTheCall : Obligations.EveryOperationAnswersWithinTheCall := by
  intro i s
  obtain ⟨t, ht⟩ := exec_total i s
  exact ⟨t, ht, exec_keeps_runner ht⟩

/-! ### GENERATE as iterated ticks -/

theorem exec_generate_int {s : State} {c : Chip} {n : Int} (hc : s.chip = some c) (hn : 0 ≤ n) :
    exec (.generate (.int n)) s = .next (s.afterTicks c n.toNat) := exec_generate_some hc (checkCount_int hn)

theorem runTicks_eq_iterate (n : Nat) (m : MutState) :
    runTicks n m = ((List.range n).map fun i => tickFrame (tickNext^[i] m), tickNext^[n] m) := by
  induction n generalizing m with
  | zero => rfl
  | succ n ih => simp [runTicks_succ, ih, List.range_succ_eq_map, Function.comp_def]

/-- A run of ticks may be cut at any tick: the rest runs from the state that the first part leaves (rule R130). -/
theorem runTicks_add (a b : Nat) (m : MutState) :
    runTicks (a + b) m =
      ((runTicks a m).1 ++ (runTicks b (runTicks a m).2).1, (runTicks b (runTicks a m).2).2) := by
  induction a generalizing m with
  | zero => simp
  | succ a ih => simp [Nat.succ_add, runTicks_succ, ih]

/-- Settles O28: the two answers of GENERATE, the run of ticks read as iterated ticks. -/
theorem generateRunsTheTicksInOrder : Obligations.GenerateRunsTheTicksInOrder := by
  refine ⟨fun s c n hc hn => ?_, fun s c n hc hn => exec_generate_none hc (checkCount_none.2 hn)⟩
  rw [exec_generate_int hc hn, State.afterTicks, runTicks_eq_iterate]
  rfl

/-- Settles O29: the run of `a + b` ticks is cut after `a`. -/
theorem generateSplitsAtAnyTick : Obligations.GenerateSplitsAtAnyTick := by
  intro s c a b hc ha hb
  refine ⟨_, _, _, _, _, exec_generate_int hc ha, exec_generate_int (afterTicks_chip s c a.toNat) hb,
    exec_generate_int hc (Int.add_nonneg ha hb), rfl, rfl, ?_, ?_⟩
  all_goals simp [Int.toNat_add ha hb, runTicks_add]

/-- Settles O30: the count is accepted on both chips or on neither, and the ticks run from the same mutable state. -/
theorem generateDependsOnTheMutableStateAlone : Obligations.GenerateDependsOnTheMutableStateAlone := by
  intro s s' t t' c c' n hc hc' hst ht ht'
  cases hn : checkCount n with
  | none =>
    obtain rfl := Host.Outcome.next.inj ((exec_generate_none hc hn).symm.trans ht)
    obtain rfl := Host.Outcome.next.inj ((exec_generate_none hc' hn).symm.trans ht')
    exact ⟨rfl, c, c', hc, hc', hst⟩
  | some k =>
    obtain rfl := Host.Outcome.next.inj ((exec_generate_some hc hn).symm.trans ht)
    obtain rfl := Host.Outcome.next.inj ((exec_generate_some hc' hn).symm.trans ht')
    exact ⟨by simp [hst], _, _, rfl, rfl, by simp [hst]⟩

/-! ### Counters -/

/-- A counter that every tick advances by `k`, in states with a property that ticks keep, has gone up by `n * k` after `n`
ticks, modulo its width. -/
theorem runTicks_counter {w k : Nat} {P : MutState → Prop} {x : MutState → BitVec w}
    (hP : ∀ m, P m → P (tickNext m)) (hx : ∀ m, P m → x (tickNext m) = BitVec.ofNat w ((x m).toNat + k))
    (n : Nat) {m : MutState} (hm : P m) : (x (runTicks n m).2).toNat = ((x m).toNat + n * k) % 2 ^ w := by
  induction n generalizing m with
  | zero => simp [Nat.mod_eq_of_lt (x m).isLt]
  | succ n ih =>
    calc (x (runTicks (n + 1) m).2).toNat
      _ = ((x (tickNext m)).toNat + n * k) % 2 ^ w := ih (hP m hm)
      _ = ((x m).toNat + k + n * k) % 2 ^ w := by rw [hx m hm, BitVec.toNat_ofNat, Nat.mod_add_mod]
      _ = ((x m).toNat + (n + 1) * k) % 2 ^ w := by rw [Nat.add_assoc, Nat.succ_mul, Nat.add_comm k]

theorem runTicks_envTimer (n : Nat) (m : MutState) :
    (runTicks n m).2.envTimer.toNat = (m.envTimer.toNat + n) % 65536 := by
  simpa using runTicks_counter (P := fun _ => True) (x := MutState.envTimer) (k := 1) (fun _ _ => trivial)
    (fun _ _ => rfl) n trivial

theorem runTicks_lfo (n : Nat) (m : MutState) :
    (runTicks n m).2.lfo.toNat = (m.lfo.toNat + n * lfoStep (fieldRate m.regs)) % 65536 :=
  runTicks_counter (P := fun m' => m'.regs = m.regs) (x := MutState.lfo) (fun _ h => h)
    (fun m' h => by rw [tickNext_lfo, advanceLfo, h]) n rfl

/-- Rule R160's table: the step doubles with each rate above 0. -/
theorem lfoStep_eq {rate : Nat} (h : rate < 16) : lfoStep rate = if rate = 0 then 0 else 2 ^ (rate - 1) := by
  decide +revert

theorem fieldRate_eq (r : Memory) : fieldRate r = (r.read 0x02).toNat % 16 := by simp [fieldRate, Memory.field, bits]

/-- Settles O31: both counters as counters of ticks, the LFO's step read from rule R160's table. -/
theorem countersAdvanceEveryTick : Obligations.CountersAdvanceEveryTick := by
  intro s c n hc hn
  refine ⟨_, _, exec_generate_int hc hn, afterTicks_chip s c n.toNat, runTicks_envTimer _ _, ?_, runTicks_regs _ _,
    runTicks_latch _ _, rfl, rfl⟩
  rw [← fieldRate_eq, ← lfoStep_eq (fieldRate_lt _)]
  exact runTicks_lfo _ _

/-! ### One operator in one tick -/

/-- A key-on edge restarts the phase; nothing else in the stage moves it (rules R183 to R185). -/
theorem keyEdge_phase (r : Memory) (k : Fin 8) (o : Operator) :
    (keyEdge r k o).phase = if keyBit r k = true ∧ o.kprev = false then 0#20 else o.phase := by
  obtain ⟨hkey, hedge⟩ | ⟨hkey, hprev, hedge⟩ | ⟨hkey, hprev, hedge⟩ := keyEdge_cases r k o
  · simp [hedge, hkey]
  · simp [hedge, hkey, hprev]
  · simp [hedge, hkey]

theorem envelopeClock_iff {timer : BitVec 16} : envelopeClock timer = true ↔ timer.toNat % 8 = 0 := by
  simp [envelopeClock]

section
variable (m : MutState) (k : Fin 8)

theorem tickNext_kprev : ((tickNext m).ops.get k).kprev = keyBit m.regs k := by simp

/-- The phase is advanced from where the key edges leave it. -/
theorem tickNext_phase :
    ((tickNext m).ops.get k).phase =
      BitVec.ofNat 20 ((keyEdge m.regs k (m.ops.get k)).phase.toNat + phaseStep m.regs k) := by
  simp [tickOperators_phase]

end

/-- Settles O33: what the advance finds is `tickOperators`, whose phase the key edges alone decide, and whose level and
segment the envelope update decides on an envelope clock. -/
theorem tickTakesEdgesThenEnvelopeThenAdvance : Obligations.TickTakesEdgesThenEnvelopeThenAdvance := by
  intro m k
  refine ⟨tickNext_kprev m k, fun hkey hprev => ?_, fun hedge => ?_, fun hclock => ?_, fun hclock => ?_⟩
  · rw [tickNext_phase, keyEdge_phase, if_pos ⟨hkey, hprev⟩]
    simp
  · rw [tickNext_phase, keyEdge_phase, if_neg hedge, BitVec.toNat_ofNat]
  · simp [get_tickOperators, envelopeClock_iff, hclock]
  · simp [get_tickOperators, envelopeClock_iff, hclock]

/-! ### One operator in several ticks -/

/-- With the registers `r`, no key edge is pending for operator `k` (rule R183). -/
structure MutState.NoEdge (r : Memory) (k : Fin 8) (m : MutState) : Prop where
  regs : m.regs = r
  key : keyBit r k = (m.ops.get k).kprev

section
variable {r : Memory} {k : Fin 8} {m : MutState} (h : m.NoEdge r k)
include h

theorem tickNext_noEdge : (tickNext m).NoEdge r k where
  regs := h.regs
  key := by rw [tickNext_kprev, h.regs]

theorem tickNext_phase_of_noEdge :
    ((tickNext m).ops.get k).phase = BitVec.ofNat 20 ((m.ops.get k).phase.toNat + phaseStep r k) := by
  obtain ⟨rfl, hkey⟩ := h
  have hedge : ¬ (keyBit m.regs k = true ∧ (m.ops.get k).kprev = false) := by simp [hkey]
  rw [tickNext_phase, keyEdge_phase, if_neg hedge]

end

/-- Settles O32: a tick leaves no edge pending, so the phase is a counter of ticks. -/
theorem phaseAdvancesByTheStepEveryTick : Obligations.PhaseAdvancesByTheStepEveryTick := by
  intro s c n k hc hn hkey
  exact ⟨_, _, exec_generate_int hc hn, afterTicks_chip s c n.toNat,
    runTicks_counter (P := MutState.NoEdge c.st.regs k) (x := fun m => (m.ops.get k).phase)
      (fun _ => tickNext_noEdge) (fun _ => tickNext_phase_of_noEdge) n.toNat ⟨rfl, hkey⟩⟩

/-! ### The frame of one tick -/

/-- Settles O34: the bank described is `tickOperators`, from which the tick's frame is mixed. -/
theorem frameIsMixedAfterEdgesAndEnvelope : Obligations.FrameIsMixedAfterEdgesAndEnvelope := by
  intro s c b hc hb
  obtain rfl : b = tickOperators c.st :=
    bank_ext fun k => by rw [hb, get_tickOperators]; simp only [envelopeClock_iff]
  exact ⟨_, exec_generate_int hc Int.one_nonneg, rfl⟩

end Sys2Proof.Machine
end

section
/-! PROOFS. Phase, waveform and LFO (rules R150 to R162): the register fields of an operator as arithmetic on their bytes,
the phase step, the waveforms built from the quarter-wave table, an operator's output and the LFO's amount. -/
namespace Sys2Proof.Machine

/-! ### The fields of an operator in their bytes -/

section
variable (r : Memory) (ch : Nat) (k : Fin 8)

theorem fieldDepth_eq : fieldDepth r = (r.read 0x02).toNat / 16 := by
  have := (r.read 0x02).isLt
  simp only [fieldDepth, Memory.field, bits]
  omega

theorem fieldFnum_eq :
    fieldFnum r ch = (r.read (0x14 + ch)).toNat % 8 * 256 + (r.read (0x10 + ch)).toNat := by
  rw [fieldFnum, field_byte]
  simp [Memory.field, bits]

theorem fieldBlock_eq : fieldBlock r ch = (r.read (0x14 + ch)).toNat / 8 % 8 := by simp [fieldBlock, Memory.field, bits]

theorem fieldMul_eq : fieldMul r k = (r.read (0x50 + k.val)).toNat % 16 := by simp [fieldMul, Memory.field, bits]

theorem fieldWs_eq : fieldWs r k = (r.read (0x50 + k.val)).toNat / 16 % 4 := by simp [fieldWs, Memory.field, bits]

theorem fieldAm_eq : fieldAm r k = (r.read (0x50 + k.val)).toNat / 64 % 2 := by simp [fieldAm, Memory.field, bits]

theorem fieldTl_eq : fieldTl r k = (r.read (0x58 + k.val)).toNat % 128 := by simp [fieldTl, Memory.field, bits]

end

/-! ### The phase step -/

/-- Rule R151's table: twice the multiple, and 1 for the multiple one half. -/
theorem mulX2_eq {mul : Nat} (h : mul < 16) : mulX2 mul = if mul = 0 then 1 else 2 * mul := by
  decide +revert

theorem mulX2_le {mul : Nat} (h : mul < 16) : mulX2 mul ≤ 30 := by
  rw [mulX2_eq h]
  split <;> omega

/-- The largest step of rule R152: every factor at its largest. -/
theorem phaseStep_le (r : Memory) (k : Fin 8) : phaseStep r k ≤ 1965120 := by
  have hfnum : fieldFnum r (channelOf k) ≤ 2047 := Nat.le_of_lt_succ (fieldFnum_lt r _)
  have hblock : fieldBlock r (channelOf k) ≤ 7 := Nat.le_of_lt_succ (fieldBlock_lt r _)
  have hmul : mulX2 (fieldMul r k) ≤ 30 := mulX2_le (fieldMul_lt r k)
  calc phaseStep r k
    _ ≤ 2047 * 2 ^ 7 * 30 / 2 ^ 2 := by unfold phaseStep; gcongr; decide
    _ = 1965120 := rfl

/-- Settles O35: the fields and the multiplier written out, each factor bounded for the largest step. -/
theorem phaseStepIsTheExactFloor : Obligations.PhaseStepIsTheExactFloor := by
  intro r k
  refine ⟨?_, phaseStep_le r k⟩
  rw [phaseStep, mulX2_eq (fieldMul_lt r k), fieldMul_eq, fieldBlock_eq, fieldFnum_eq]
  rfl

/-! ### The waveforms -/

section
variable {j : Nat} (h : j < 64) (q : Nat)
include h

theorem bits_offset_in_quarter : bits (64 * q + j) 5 0 = j := by
  simp only [bits]
  omega

theorem bits_quarter : bits (64 * q + j) 7 6 = q % 4 := by
  simp only [bits]
  omega

/-- The four quarters of rule R156: the table forwards, backwards, and both negated. -/
theorem sine_quarters :
    sine j = quarterWave j ∧ sine (64 + j) = quarterWave (63 - j) ∧
    sine (128 + j) = -(quarterWave j : Int) ∧ sine (192 + j) = -(quarterWave (63 - j) : Int) := by
  have offset := bits_offset_in_quarter h
  have quarter := bits_quarter h
  refine ⟨?_, ?_, ?_, ?_⟩
  · have hoffset : bits j 5 0 = j := by simpa using offset 0
    have hquarter : bits j 7 6 = 0 := by simpa using quarter 0
    simp [sine, hoffset, hquarter]
  · simp [sine, offset 1, quarter 1]
  · simp [sine, offset 2, quarter 2]
  · simp [sine, offset 3, quarter 3]

theorem quarterWave_le : quarterWave j ≤ 2047 := by decide +revert

end

theorem sine_range (i : Nat) : -2047 ≤ sine i ∧ sine i ≤ 2047 := by
  have hlow : bits i 5 0 < 64 := bits_lt i 5 0
  have hforwards := quarterWave_le hlow
  have hbackwards : quarterWave (63 - bits i 5 0) ≤ 2047 := quarterWave_le (by omega)
  unfold sine
  split <;> simp only [Int.ofNat_eq_natCast] <;> omega

theorem wave_range (ws i : Nat) : -2047 ≤ wave ws i ∧ wave ws i ≤ 2047 := by
  have hsine := sine_range i
  have hrectified := sine_range (i % 128)
  unfold wave
  split
  · exact hsine
  · split <;> omega
  · exact hrectified
  · split <;> omega

/-- Settles O36: the table read off, the sine by its quarters, the waveforms by their halves. -/
theorem waveformsAreBuiltFromTheQuarterWave : Obligations.WaveformsAreBuiltFromTheQuarterWave := by
  refine ⟨by decide, fun j => sine_quarters, fun i => ⟨rfl, rfl, fun hfirst => ?_, fun hsecond => ?_⟩⟩
  · exact ⟨if_pos hfirst, if_pos hfirst⟩
  · exact ⟨if_neg hsecond.not_gt, if_neg hsecond.not_gt⟩

/-! ### An operator's output -/

theorem waveIndex_eq (p : BitVec 20) : waveIndex p = p.toNat / 4096 := by
  have := p.isLt
  simp only [waveIndex, bits]
  omega

/-- What rules R158 and R162 do to an amplitude only lowers it. -/
theorem attenuated_le (a t : Nat) : a * (128 - t) / 2 ^ 7 ≤ a := by
  refine Nat.div_le_of_le_mul ?_
  rw [Nat.mul_comm]
  gcongr
  omega

theorem amplitude_le (r : Memory) (k : Fin 8) (o : Operator) : amplitude r k o ≤ o.level.toNat :=
  attenuated_le _ _

section
variable {r : Memory} {k : Fin 8}

theorem modulatedAmplitude_of_amOn (h : fieldAm r k = 1) (o : Operator) (am : Nat) :
    modulatedAmplitude r k o am = amplitude r k o * (128 - am) / 2 ^ 7 := if_pos h

theorem modulatedAmplitude_of_amOff (h : fieldAm r k = 0) (o : Operator) (am : Nat) :
    modulatedAmplitude r k o am = amplitude r k o := if_neg (by simp [h])

end

theorem modulatedAmplitude_le (r : Memory) (k : Fin 8) (o : Operator) (am : Nat) :
    modulatedAmplitude r k o am ≤ o.level.toNat := by
  refine le_trans ?_ (amplitude_le r k o)
  unfold modulatedAmplitude
  split
  · exact attenuated_le _ _
  · exact le_rfl

theorem opOut_eq (r : Memory) (k : Fin 8) (o : Operator) (p : BitVec 20) (am : Nat) :
    opOut r k o p am = wave (fieldWs r k) (p.toNat / 4096) * (modulatedAmplitude r k o am : Int) / 1024 := by
  rw [opOut, waveIndex_eq]
  rfl

/-- Settles O37: the output through the modulated amplitude, in both of its cases. -/
theorem operatorOutputIsTheScaledWaveform : Obligations.OperatorOutputIsTheScaledWaveform := by
  rintro r k o p am amp rfl
  rw [opOut_eq, ← fieldTl_eq, ← fieldWs_eq, ← fieldAm_eq]
  refine ⟨fun hoff => ?_, fun hon => ?_⟩
  · rw [modulatedAmplitude_of_amOff hoff]
    rfl
  · rw [modulatedAmplitude_of_amOn hon]
    rfl

/-- The range of rule R159: a sample within ±2047 times an amplitude up to 1023, over 1024 and rounded down. -/
theorem scaled_sample_range {w : Int} {a : Nat} (hlow : -2047 ≤ w) (hhigh : w ≤ 2047) (ha : a ≤ 1023) :
    -2046 ≤ w * (a : Int) / 1024 ∧ w * (a : Int) / 1024 ≤ 2045 := by
  have hproduct : |w * (a : Int)| ≤ 2047 * 1023 := by
    rw [abs_mul, Nat.abs_cast]
    exact mul_le_mul (abs_le.mpr ⟨hlow, hhigh⟩) (by exact_mod_cast ha) (Int.natCast_nonneg a) (by decide)
  obtain ⟨hmin, hmax⟩ := abs_le.mp hproduct
  omega

/-- Settles O38: the bounds of the sample and of the amplitude, which is 0 with the level and sees the LFO by the AM bit
alone. -/
theorem operatorOutputIsBounded : Obligations.OperatorOutputIsBounded := by
  intro r k o p am
  have hamp := modulatedAmplitude_le r k o am
  obtain ⟨hlow, hhigh⟩ := wave_range (fieldWs r k) (p.toNat / 4096)
  rw [← fieldAm_eq, opOut_eq, opOut_eq]
  obtain ⟨hmin, hmax⟩ := scaled_sample_range hlow hhigh (hamp.trans (Nat.le_of_lt_succ o.level.isLt))
  refine ⟨hmin, hmax, fun hlevel => ?_, fun hoff => ?_⟩
  · have hzero : modulatedAmplitude r k o am = 0 := by simpa [hlevel] using hamp
    simp [hzero]
  · rw [modulatedAmplitude_of_amOff hoff, modulatedAmplitude_of_amOff hoff]

/-! ### The LFO's amount -/

theorem lfoAm_eq (lfo : BitVec 16) (r : Memory) :
    lfoAm lfo r =
      (if lfo.toNat / 256 < 128 then lfo.toNat / 256 else 255 - lfo.toNat / 256) * fieldDepth r / 16 := by
  have hbyte : bits lfo.toNat 15 8 = lfo.toNat / 256 := by
    have := lfo.isLt
    simp only [bits]
    omega
  simp only [lfoAm, hbyte]
  rfl

/-- The largest amount of rule R161: the triangle's peak at the greatest depth. -/
theorem lfoAm_le (lfo : BitVec 16) (r : Memory) : lfoAm lfo r ≤ 119 := by
  have hdepth : fieldDepth r ≤ 15 := Nat.le_of_lt_succ (fieldDepth_lt r)
  have htriangle : (if lfo.toNat / 256 < 128 then lfo.toNat / 256 else 255 - lfo.toNat / 256) ≤ 127 := by
    split <;> omega
  calc lfoAm lfo r
    _ ≤ 127 * 15 / 16 := by rw [lfoAm_eq]; gcongr
    _ = 119 := rfl

/-- Settles O39: the triangle written out, its peak bounded, and nothing left of it at depth 0. -/
theorem lfoAmountIsTheScaledTriangle : Obligations.LfoAmountIsTheScaledTriangle := by
  intro lfo r
  rw [← fieldDepth_eq]
  exact ⟨lfoAm_eq lfo r, lfoAm_le lfo r, fun hdepth => by simp [lfoAm_eq, hdepth]⟩

end Sys2Proof.Machine
end

section
/-! PROOFS. The envelope generator (rules R182 to R190): the envelope fields and the key bit as arithmetic on their bytes, the
key edges, each segment's update, and what repeated updates make of an attack and of a release. -/
namespace Sys2Proof.Machine

/-! ### The envelope fields and the key bit in their bytes -/

section
variable (r : Memory) (k : Fin 8)

theorem fieldAr_eq : fieldAr r k = (r.read (0x40 + k.val)).toNat / 16 := by
  have := (r.read (0x40 + k.val)).isLt
  simp only [fieldAr, Memory.field, bits]
  omega

theorem fieldDr_eq : fieldDr r k = (r.read (0x40 + k.val)).toNat % 16 := by simp [fieldDr, Memory.field, bits]

theorem fieldSl_eq : fieldSl r k = (r.read (0x48 + k.val)).toNat / 16 := by
  have := (r.read (0x48 + k.val)).isLt
  simp only [fieldSl, Memory.field, bits]
  omega

theorem fieldRr_eq : fieldRr r k = (r.read (0x48 + k.val)).toNat % 16 := by simp [fieldRr, Memory.field, bits]

theorem keyBit_toNat : (keyBit r k).toNat = (r.read (0x20 + k.val / 2)).toNat / 2 ^ (k.val % 2) % 2 := by
  have hbit : r.field (0x20 + channelOf k) (k.val % 2) (k.val % 2) =
      (r.read (0x20 + k.val / 2)).toNat / 2 ^ (k.val % 2) % 2 := by
    simp [Memory.field, bits, channelOf]
  rw [keyBit, hbit]
  obtain h | h := Nat.mod_two_eq_zero_or_one ((r.read (0x20 + k.val / 2)).toNat / 2 ^ (k.val % 2)) <;> simp [h]

end

section
variable {r : Memory} {k : Fin 8} {o : Operator}

/-! ### Key edges -/

theorem keyEdge_of_keyOn (hkey : keyBit r k = true) (hprev : o.kprev = false) :
    keyEdge r k o = { o with eg := .attack, phase := 0#20, kprev := true } := by
  simp [keyEdge, hkey, hprev]

theorem keyEdge_of_keyOff (hkey : keyBit r k = false) (hprev : o.kprev = true) :
    keyEdge r k o = { o with eg := .release, kprev := false } := by
  simp [keyEdge, hkey, hprev]

theorem keyEdge_of_eq (hkey : keyBit r k = o.kprev) : keyEdge r k o = o := by
  simp only [keyEdge, hkey]
  cases o.kprev <;> rfl

/-! ### The update of each segment -/

theorem egUpdate_attack (h : o.eg = .attack) : egUpdate r k o = egAttack r k o := by simp [egUpdate, h]

theorem egUpdate_decay (h : o.eg = .decay) : egUpdate r k o = egDecay r k o := by simp [egUpdate, h]

theorem egUpdate_release (h : o.eg = .release) : egUpdate r k o = egRelease r k o := by simp [egUpdate, h]

theorem egUpdate_sustain (h : o.eg = .sustain) : egUpdate r k o = o := by simp [egUpdate, h]

theorem egUpdate_off (h : o.eg = .off) : egUpdate r k o = o := by simp [egUpdate, h]

theorem egAttack_level :
    (egAttack r k o).level.toNat = min 1023 (o.level.toNat + egStep (fieldAr r k)) := by
  rw [egAttack, BitVec.toNat_ofNat, Nat.mod_eq_of_lt (by omega)]

theorem egAttack_eg :
    (egAttack r k o).eg = if (egAttack r k o).level.toNat = 1023 then .decay else .attack := by
  rw [egAttack_level]
  rfl

theorem egAttack_full (h : 1023 ≤ o.level.toNat + egStep (fieldAr r k)) :
    (egAttack r k o).eg = .decay ∧ (egAttack r k o).level.toNat = 1023 := by
  have hfull : (egAttack r k o).level.toNat = 1023 := by rw [egAttack_level, Nat.min_eq_left h]
  exact ⟨by rw [egAttack_eg, if_pos hfull], hfull⟩

/-- At or below the target, which is between 63 and 1023, the target is taken. -/
theorem egDecay_of_le
    (h : (o.level.toNat : Int) - egStep (fieldDr r k) ≤ 1023 - (fieldSl r k : Int) * 64) :
    ((egDecay r k o).level.toNat : Int) = 1023 - (fieldSl r k : Int) * 64 ∧ (egDecay r k o).eg = .sustain := by
  have hsl := fieldSl_lt r k
  have hdecay : egDecay r k o =
      { o with level := BitVec.ofNat 10 (1023 - (fieldSl r k : Int) * 64).toNat, eg := .sustain } := if_pos h
  rw [hdecay]
  refine ⟨?_, rfl⟩
  rw [BitVec.toNat_ofNat]
  omega

/-- Above the target, which is not negative, the new level fits. -/
theorem egDecay_of_lt
    (h : 1023 - (fieldSl r k : Int) * 64 < (o.level.toNat : Int) - egStep (fieldDr r k)) :
    ((egDecay r k o).level.toNat : Int) = o.level.toNat - egStep (fieldDr r k) ∧ (egDecay r k o).eg = o.eg := by
  have hsl := fieldSl_lt r k
  have hlevel := o.level.isLt
  have hdecay : egDecay r k o =
      { o with level := BitVec.ofNat 10 ((o.level.toNat : Int) - egStep (fieldDr r k)).toNat } := if_neg h.not_ge
  rw [hdecay]
  refine ⟨?_, rfl⟩
  rw [BitVec.toNat_ofNat]
  omega

theorem egRelease_level : (egRelease r k o).level.toNat = o.level.toNat - egStep (fieldRr r k) := by
  have := o.level.isLt
  rw [egRelease, BitVec.toNat_ofNat, Nat.mod_eq_of_lt (by omega)]

theorem egRelease_eg :
    (egRelease r k o).eg = if (egRelease r k o).level.toNat = 0 then .off else .release := by
  rw [egRelease_level]
  rfl

/-! ### Several updates -/

/-- An attack that has not reached 1023 goes on, one step of the attack rate higher with each update. -/
theorem iterate_egUpdate_attack (h : o.eg = .attack) {n : Nat}
    (hn : o.level.toNat + n * egStep (fieldAr r k) < 1023) :
    ((egUpdate r k)^[n] o).eg = .attack ∧
    ((egUpdate r k)^[n] o).level.toNat = o.level.toNat + n * egStep (fieldAr r k) := by
  induction n with
  | zero => simpa using h
  | succ n ih =>
    rw [Nat.succ_mul] at hn ⊢
    obtain ⟨heg, hlevel⟩ := ih (by omega)
    rw [Function.iterate_succ_apply', egUpdate_attack heg, egAttack_eg, egAttack_level, hlevel,
      Nat.min_eq_right (by omega), if_neg (by omega)]
    exact ⟨rfl, by omega⟩

/-- A release falls by one step of the release rate with each update; the one that finds or brings the level to 0 enters OFF,
which holds it there. -/
theorem iterate_egUpdate_release (h : o.eg = .release) (n : Nat) :
    ((egUpdate r k)^[n] o).level.toNat = o.level.toNat - n * egStep (fieldRr r k) ∧
    ((egUpdate r k)^[n] o).eg =
      if n ≠ 0 ∧ o.level.toNat ≤ n * egStep (fieldRr r k) then .off else .release := by
  induction n with
  | zero => simpa using h
  | succ n ih =>
    obtain ⟨hlevel, heg⟩ := ih
    rw [Function.iterate_succ_apply', Nat.succ_mul]
    split at heg
    case isTrue hoff =>
      rw [egUpdate_off heg, if_pos (by omega)]
      exact ⟨by omega, heg⟩
    case isFalse =>
      rw [egUpdate_release heg, egRelease_eg, egRelease_level, hlevel]
      exact ⟨by omega, if_congr (by omega) rfl rfl⟩

end

/-! ### The obligations of 43_envelope.md -/

/-- Settles O40: the key bit against the key flag, one equation of the edge for each case. -/
theorem keyEdgesFollowTheKeyBit : Obligations.KeyEdgesFollowTheKeyBit := by
  intro r k o
  rw [← keyBit_toNat]
  have hinjective : Function.Injective Bool.toNat := Bool.injective_iff.mpr (by decide)
  exact ⟨fun hon => keyEdge_of_keyOn (by simpa using hon), fun hoff => keyEdge_of_keyOff (by simpa using hoff),
    fun hsame => keyEdge_of_eq (hinjective hsame)⟩

/-- Settles O41: the level reached decides the segment. -/
theorem attackRaisesTheLevel : Obligations.AttackRaisesTheLevel := by
  intro r k o h
  rw [← fieldAr_eq, egUpdate_attack h]
  exact ⟨egAttack_level, fun hfull => by rw [egAttack_eg, if_pos hfull], fun hpart => by rw [egAttack_eg, if_neg hpart],
    rfl, rfl⟩

/-- Settles O42: the target lies within the range of the level, so either branch stores its value exactly. -/
theorem decayEndsAtTheSustainLevel : Obligations.DecayEndsAtTheSustainLevel := by
  rintro r k o target nl h rfl rfl
  rw [← fieldSl_eq, ← fieldDr_eq]
  refine ⟨fun hle => ?_, fun hlt => ?_, egUpdate_phase r k o, egUpdate_kprev r k o⟩
  · rw [egUpdate_decay h]
    exact egDecay_of_le hle
  · rw [egUpdate_decay h, ← h]
    exact egDecay_of_lt hlt

/-- Settles O43: both segments' updates are the identity. -/
theorem sustainAndOffHold : Obligations.SustainAndOffHold := by
  rintro r k o (h | h)
  · exact egUpdate_sustain h
  · exact egUpdate_off h

/-- Settles O44, by induction on the number of envelope clocks. -/
theorem releaseFallsToOff : Obligations.ReleaseFallsToOff := by
  intro r k o n h
  rw [← fieldRr_eq]
  exact iterate_egUpdate_release h n

/-- Settles O45: before the last clock the attack has risen by its steps alone; the last clock takes it to 1023. -/
theorem fullAttackTakesTheStatedClocks : Obligations.FullAttackTakesTheStatedClocks := by
  refine ⟨by decide, ?_⟩
  rintro r k o n step h hzero rfl -
  rw [← fieldAr_eq]
  have hrise {m : Nat} (hm : m * egStep (fieldAr r k) < 1023) :
      ((egUpdate r k)^[m] o).eg = .attack ∧ ((egUpdate r k)^[m] o).level.toNat = m * egStep (fieldAr r k) := by
    simpa [hzero] using iterate_egUpdate_attack (r := r) (k := k) h (n := m) (by simpa [hzero] using hm)
  refine ⟨hrise, fun hreach hbefore => ?_⟩
  cases n with
  | zero => omega
  | succ m =>
    obtain ⟨heg, hlevel⟩ := hrise (m := m) hbefore
    rw [Function.iterate_succ_apply', egUpdate_attack heg]
    exact egAttack_full (by rwa [hlevel, ← Nat.succ_mul])

end Sys2Proof.Machine
end

section
/-! PROOFS. The channel mixer and the output scaler (rules R210 to R217): the fields of a channel in their byte, a channel's
output by its algorithm, the scaled and clamped sum of the routed channels, and the frames it makes silent or exact. -/
namespace Sys2Proof.Machine

/-! ### The fields of a channel in their byte -/

section
variable (r : Memory) (ch : Nat)

theorem fieldAlg_eq : fieldAlg r ch = (r.read (0x28 + ch)).toNat % 8 := by simp [fieldAlg, Memory.field, bits]

theorem fieldLen_eq : fieldLen r ch = (r.read (0x28 + ch)).toNat / 16 % 2 := by simp [fieldLen, Memory.field, bits]

theorem fieldRen_eq : fieldRen r ch = (r.read (0x28 + ch)).toNat / 32 % 2 := by simp [fieldRen, Memory.field, bits]

end

/-! ### A channel's output -/

/-- Every algorithm index but 1 acts as algorithm 0 (rule R211). -/
theorem effectiveAlg_of_ne_one {a : Nat} (h : a ≠ 1) : effectiveAlg a = 0 := if_neg h

section
variable (r : Memory) (ops : OperatorBank) (ch : Fin 4) (am : Nat)

theorem channelOut_of_alg_one (h : fieldAlg r ch.val = 1) :
    channelOut r ops ch am =
      modulatorOut r ops ch am + carrierOut r ops ch (ops.get (carrierOf ch)).phase am := by
  simp [channelOut, effectiveAlg, h]

theorem channelOut_of_alg_ne_one (h : fieldAlg r ch.val ≠ 1) :
    channelOut r ops ch am =
      carrierOut r ops ch (modulatedPhase (ops.get (carrierOf ch)).phase (modulatorOut r ops ch am)) am :=
  if_pos (effectiveAlg_of_ne_one h)

/-- The modulated phase is the Euclidean remainder of the signed sum (rule R212). -/
theorem modulatedPhase_toNat (p : BitVec 20) (m : Int) :
    ((modulatedPhase p m).toNat : Int) = (p.toNat + m * 512) % 1048576 := by
  rw [modulatedPhase, BitVec.toNat_ofInt]
  exact Int.toNat_of_nonneg (Int.emod_nonneg _ (by decide))

theorem opOut_range (k : Fin 8) (o : Operator) (p : BitVec 20) :
    -2046 ≤ opOut r k o p am ∧ opOut r k o p am ≤ 2045 := by
  obtain ⟨hmin, hmax, -, -⟩ := operatorOutputIsBounded r k o p am
  exact ⟨hmin, hmax⟩

theorem modulatorOut_range : -2046 ≤ modulatorOut r ops ch am ∧ modulatorOut r ops ch am ≤ 2045 :=
  opOut_range ..

theorem carrierOut_range (p : BitVec 20) :
    -2046 ≤ carrierOut r ops ch p am ∧ carrierOut r ops ch p am ≤ 2045 :=
  opOut_range ..

/-- The range of rule R213, which holds that of rule R212. -/
theorem channelOut_range : -4092 ≤ channelOut r ops ch am ∧ channelOut r ops ch am ≤ 4090 := by
  by_cases h : fieldAlg r ch.val = 1
  · have hm := modulatorOut_range r ops ch am
    have hc := carrierOut_range r ops ch am (ops.get (carrierOf ch)).phase
    rw [channelOut_of_alg_one r ops ch am h]
    omega
  · rw [channelOut_of_alg_ne_one r ops ch am h]
    have hc := carrierOut_range r ops ch am
      (modulatedPhase (ops.get (carrierOf ch)).phase (modulatorOut r ops ch am))
    omega

end

/-- Settles O46: the two operators are the channel's modulator and carrier, and ALG 1 alone adds them. -/
theorem channelOutIsFmOrSum : Obligations.ChannelOutIsFmOrSum := by
  intro r b ch am m c modulator hm hc hmodulator
  obtain rfl : m = modulatorOf ch := Fin.ext hm
  obtain rfl : c = carrierOf ch := Fin.ext hc
  obtain rfl : modulator = modulatorOut r b ch am := hmodulator
  rw [← fieldAlg_eq]
  refine ⟨fun hsum => ⟨channelOut_of_alg_one r b ch am hsum, channelOut_range r b ch am⟩, fun hfm => ?_⟩
  rw [channelOut_of_alg_ne_one r b ch am hfm]
  exact ⟨⟨_, modulatedPhase_toNat _ _, rfl⟩, carrierOut_range ..⟩

/-! ### Undefined algorithms -/

/-- The routing fields of CTRL lie above its three ALG bits. -/
theorem bits_eq_of_aboveAlg {a v w hi lo : Nat} (hf : FieldAt a hi lo) (ha : 0x28 ≤ a ∧ a ≤ 0x2B)
    (h : v / 8 = w / 8) : bits v hi lo = bits w hi lo := by
  cases hf with
  | len | ren => simp only [bits]; omega
  | key k => have := channelOf_lt k; omega
  | _ => omega

/-- Bytes of CTRL that differ in ALG only, neither with ALG 1, sound alike (rule R211). -/
theorem soundsAlike_write_alg {m : Memory} (hm : m.wf = true) {a v w : Byte}
    (ha : 0x28 ≤ a.toNat ∧ a.toNat ≤ 0x2B) (habove : v.toNat / 8 = w.toNat / 8) (hv : v.toNat % 8 ≠ 1)
    (hw : w.toNat % 8 ≠ 1) : SoundsAlike (m.write a v) (m.write a w) := by
  have alg {x : Byte} (hx : x.toNat % 8 ≠ 1) : effectiveAlg (bits x.toNat 2 0) = 0 :=
    effectiveAlg_of_ne_one (by simpa [bits] using hx)
  exact write_soundsAlike hm (fun hi lo hf => bits_eq_of_aboveAlg hf ha habove) fun _ _ _ => by rw [alg hv, alg hw]

/-- Settles O47: the two writes leave register files that sound alike, and GENERATE keeps the stored byte. -/
theorem undefinedAlgorithmSoundsAsZero : Obligations.UndefinedAlgorithmSoundsAsZero := by
  intro s t t' u u' c ch v n hc hwf hch0 hch3 hv0 hv1 halg ht ht' hu hu'
  obtain ⟨a, hca, ha⟩ := exists_checkByte (v := 0x28 + ch) (by omega) (by omega)
  obtain ⟨w, hcw, hw⟩ := exists_checkByte (v := v - v % 8) (by omega) (by omega)
  obtain ⟨v, hcv, rfl⟩ := exists_checkByte hv0 hv1
  obtain rfl := Host.Outcome.next.inj ((exec_write hc hca hcv).symm.trans ht)
  obtain rfl := Host.Outcome.next.inj ((exec_write hc hca hcw).symm.trans ht')
  have hsound : SoundsAlike (c.st.regs.write a v) (c.st.regs.write a w) :=
    soundsAlike_write_alg hwf (by omega) (by omega) (by omega) (by omega)
  obtain ⟨hreply, d, -, hd, -, -, hregs, -⟩ :=
    exec_generate_alike (afterWrite_chip s c a v) (afterWrite_chip s c a w) ⟨hsound, rfl, rfl, rfl⟩ hu hu'
  have haddress : 0x28 + ch.toNat = a.toNat := by omega
  exact ⟨hreply, d, hd, by simp [hregs, read_write hwf, haddress]⟩

/-! ### The output scaler -/

section
variable (r : Memory) (c : Fin 4 → Int)

theorem leftSum_eq :
    leftSum r c = ∑ ch : Fin 4, if (r.read (0x28 + ch.val)).toNat / 16 % 2 = 1 then c ch else 0 := by
  simp [leftSum, routed, fieldLen_eq, Fin.sum_univ_four]

theorem rightSum_eq :
    rightSum r c = ∑ ch : Fin 4, if (r.read (0x28 + ch.val)).toNat / 32 % 2 = 1 then c ch else 0 := by
  simp [rightSum, routed, fieldRen_eq, Fin.sum_univ_four]

end

theorem scale_eq (r : Memory) (sum : Int) :
    scale r sum = max (-32768) (min 32767 (sum * (r.read 0x03).toNat / 16)) := rfl

/-- Settles O48: both sums written out, each scaled and clamped. -/
theorem outputIsScaledAndClamped : Obligations.OutputIsScaledAndClamped := by
  rintro r c l rt rfl rfl
  rw [← leftSum_eq, ← rightSum_eq]
  exact ⟨scale_eq .., scale_eq ..⟩

/-- A volume that is a whole gain `g` multiplies exactly a sum whose product stays within 16 bits. -/
theorem scale_of_gain {r : Memory} {sum : Int} {g : Nat} (hvol : (r.read 0x03).toNat = 16 * g)
    (hlow : -32768 ≤ g * sum) (hhigh : g * sum ≤ 32767) : scale r sum = g * sum := by
  have hexact : sum * (16 * g : Nat) / 16 = g * sum := by
    rw [Nat.cast_mul, mul_comm sum, mul_assoc]
    exact Int.mul_ediv_cancel_left _ (by decide)
  rw [scale_eq, hvol, hexact]
  omega

/-! ### Silence -/

theorem mix_of_volume_zero {r : Memory} (h : r.read 0x03 = 0x00#8) (c : Fin 4 → Int) :
    mix r c = { out0 := 0, out1 := 0 } := by
  simp [mix, scale_eq, h]

/-- Ticks write no register, so that a volume of 0 silences them all. -/
theorem runTicks_of_volume_zero (n : Nat) {m : MutState} (h : m.regs.read 0x03 = 0x00#8) :
    (runTicks n m).1 = List.replicate n { out0 := 0, out1 := 0 } :=
  List.eq_replicate_iff.2 ⟨runTicks_length n m,
    runTicks_frames (P := fun m => m.regs.read 0x03 = 0x00#8) (fun _ h => h) (fun _ h => mix_of_volume_zero h _) n h⟩

/-- Settles O49: every frame of the run is the mix at volume 0. -/
theorem volumeZeroIsSilence : Obligations.VolumeZeroIsSilence := by
  intro s c n hc hvol hn
  exact ⟨_, exec_generate_int hc hn, by rw [afterTicks_reply, runTicks_of_volume_zero _ hvol]⟩

theorem exec_reset {s : State} {c : Chip} (hc : s.chip = some c) :
    exec .reset s = .next ((s.withChip { c with st := MutState.reset }).withReply .nothing) := by
  simp only [exec, execReset, onChip_some _ hc, finishWith]

/-- Settles O50: RESET leaves the volume at 0. -/
theorem resetIsFollowedBySilence : Obligations.ResetIsFollowedBySilence := by
  intro s t c n hc ht hn
  obtain rfl := Host.Outcome.next.inj ((exec_reset hc).symm.trans ht)
  exact volumeZeroIsSilence _ { c with st := MutState.reset } n rfl rfl hn

/-! ### Exact frames -/

/-- Four channels, each in the range of rule R213 and routed or not, sum to no more than rule R217 gives. -/
theorem routedSum_range {c : Fin 4 → Int} (h : ∀ ch, -4092 ≤ c ch ∧ c ch ≤ 4090) (on : Fin 4 → Prop)
    [DecidablePred on] :
    -16368 ≤ (∑ ch, if on ch then c ch else 0) ∧ (∑ ch, if on ch then c ch else 0) ≤ 16360 := by
  have range (ch : Fin 4) : -4092 ≤ (if on ch then c ch else 0) ∧ (if on ch then c ch else 0) ≤ 4090 := by
    have := h ch
    split <;> omega
  have h0 := range 0
  have h1 := range 1
  have h2 := range 2
  have h3 := range 3
  rw [Fin.sum_univ_four]
  omega

/-- With a volume of gain `g`, a frame is `g` times the sums of the routed channels where that fits 16 bits. -/
theorem mix_of_gain {r : Memory} {c : Fin 4 → Int} {g : Nat} (hvol : (r.read 0x03).toNat = 16 * g)
    (hl : -32768 ≤ g * leftSum r c ∧ g * leftSum r c ≤ 32767)
    (hr : -32768 ≤ g * rightSum r c ∧ g * rightSum r c ≤ 32767) :
    mix r c = { out0 := g * leftSum r c, out1 := g * rightSum r c } := by
  rw [mix, scale_of_gain hvol hl.1 hl.2, scale_of_gain hvol hr.1 hr.2]

/-- Settles O51: the sums of the routed channels are in range, and the gains 1 and 2 keep them within 16 bits. -/
theorem unityGainNeverClamps : Obligations.UnityGainNeverClamps := by
  intro m l rt c hc hl hrt
  have hrange : ∀ ch, -4092 ≤ c ch ∧ c ch ≤ 4090 := fun ch => hc ch ▸ channelOut_range ..
  have hleft : -16368 ≤ l ∧ l ≤ 16360 := hl ▸ routedSum_range hrange _
  have hright : -16368 ≤ rt ∧ rt ≤ 16360 := hrt ▸ routedSum_range hrange _
  obtain rfl : l = leftSum m.regs c := hl.trans (leftSum_eq m.regs c).symm
  obtain rfl : rt = rightSum m.regs c := hrt.trans (rightSum_eq m.regs c).symm
  have hframe : tickFrame m = mix m.regs c := congrArg (mix m.regs) (funext hc).symm
  rw [hframe]
  refine ⟨⟨hleft.1, hleft.2, hright⟩, fun hunity => ?_, fun hdouble => ?_⟩
  · simpa using mix_of_gain (g := 1) hunity (by omega) (by omega)
  · exact mix_of_gain (g := 2) hdouble (by omega) (by omega)

end Sys2Proof.Machine
end

section
/-! PROOFS. Slices of a byte sequence: a packed sequence equals a slice exactly when each of its fields equals the slice at
its own offset, and a little-endian field exactly when `MemRead` gives its value there (rules R14, R62). -/
namespace Sys2Proof

/-- The `n` bytes of `b` from offset `off` on: what `memRead b off n` reads. -/
def slice (b : List Byte) (off n : Nat) : List Byte := (b.drop off).take n

section
variable {b : List Byte} {off n : Nat}

theorem leNat_slice : leNat (slice b off n) = memRead b off n := rfl

theorem slice_length (h : off + n ≤ b.length) : (slice b off n).length = n := by
  rw [slice, List.length_take, List.length_drop]; omega

theorem slice_all (h : b.length = n) : slice b 0 n = b := List.take_of_length_le h.le

theorem slice_add (m : Nat) : slice b off (m + n) = slice b off m ++ slice b (off + m) n := by
  rw [slice, List.take_add, List.drop_drop]; rfl

theorem slice_getElem? {i : Nat} (h : i < n) : (slice b off n)[i]? = b[off + i]? := by
  rw [slice, List.getElem?_take_of_lt h, List.getElem?_drop]

/-- Two packed parts equal a slice exactly when each equals its part of the slice. -/
theorem append_eq_slice {x y : List Byte} {m : Nat} (hx : x.length = m) (h : off + m ≤ b.length) :
    x ++ y = slice b off (m + n) ↔ x = slice b off m ∧ y = slice b (off + m) n := by
  rw [slice_add]
  exact ⟨fun h' => List.append_inj h' (hx.trans (slice_length h).symm), fun ⟨hx, hy⟩ => by rw [← hx, ← hy]⟩

theorem leBytes_eq_slice {v : Nat} (hv : v < 256 ^ n) (h : off + n ≤ b.length) :
    leBytes n v = slice b off n ↔ memRead b off n = v := by
  constructor
  · intro hbytes
    rw [← leNat_slice, ← hbytes, leNat_leBytes, Nat.mod_eq_of_lt hv]
  · rintro rfl
    exact leBytes_memRead h

end

theorem memRead_one_eq {b : List Byte} {off : Nat} {v : Byte} (h : off < b.length) :
    memRead b off 1 = v.toNat ↔ b[off]? = some v := by
  rw [memRead_one, List.getElem?_eq_getElem h, Option.getD_some, Option.some_inj, BitVec.toNat_inj]

end Sys2Proof
end

section
/-! PROOFS. The snapshot codec (rules R230 to R239): which bytes are a snapshot of which mutable state, that SAVE_STATE writes
these bytes, and that LOAD_STATE accepts them and reads the state from them. -/
namespace Sys2Proof.Machine

/-! ### The layout -/

/-- Operator `k` of the snapshot `b` is `o` (rule R231). -/
structure OperatorAt (b : List Byte) (k : Nat) (o : Operator) : Prop where
  phase : memRead b (269 + 8 * k) 4 = o.phase.toNat
  level : memRead b (273 + 8 * k) 2 = o.level.toNat
  eg : memRead b (275 + 8 * k) 1 = o.eg.code
  kprev : memRead b (276 + 8 * k) 1 = o.kprev.toNat

/-- The bytes `b` are a snapshot of the mutable state `m` of a chip of family `f`: every field stands at its offset
(rule R231). -/
structure SnapshotOf (f : Family) (m : MutState) (b : List Byte) : Prop where
  length : b.length = 333
  header : b.take 8 = headerBytes f
  regs : ∀ a < 256, b[8 + a]? = some (m.regs.read a)
  latch : b[264]? = some m.latch
  envTimer : memRead b 265 2 = m.envTimer.toNat
  lfo : memRead b 267 2 = m.lfo.toNat
  ops : ∀ k : Fin 8, OperatorAt b k.val (m.ops.get k)

/-- The header of the one family, written out (rule R231). -/
theorem headerBytes_eq (f : Family) :
    headerBytes f = [0x59#8, 0x4D#8, 0x53#8, 0x53#8, 0x01#8, 0x01#8, 0x00#8, 0x00#8] := by cases f; rfl

theorem params_snapLen (f : Family) : f.params.snapLen = 333 := by cases f; rfl

@[simp] theorem operatorBytes_length (o : Operator) : (operatorBytes o).length = 8 := by simp [operatorBytes]

@[simp] theorem headerBytes_length (f : Family) : (headerBytes f).length = 8 := by simp [headerBytes]

section
variable {b : List Byte}

theorem operatorBytes_eq_slice {o : Operator} {k : Nat} (h : 269 + 8 * k + 8 ≤ b.length) :
    operatorBytes o = slice b (269 + 8 * k) 8 ↔ OperatorAt b k o := by
  have hphase : o.phase.toNat < 256 ^ 4 := by have := o.phase.isLt; omega
  have hlevel : o.level.toNat < 256 ^ 2 := by have := o.level.isLt; omega
  have heg : o.eg.code < 256 ^ 1 := by have := code_le o.eg; omega
  have hkprev : o.kprev.toNat < 256 ^ 1 := by have := Bool.toNat_le o.kprev; omega
  rw [operatorBytes, append_eq_slice (m := 7) (n := 1) (by simp) (by omega),
    append_eq_slice (m := 6) (n := 1) (by simp) (by omega), append_eq_slice (m := 4) (n := 2) (by simp) (by omega),
    leBytes_eq_slice hphase (by omega), leBytes_eq_slice hlevel (by omega), leBytes_eq_slice heg (by omega),
    leBytes_eq_slice hkprev (by omega), Nat.add_right_comm 269 _ 4, Nat.add_right_comm 269 _ 6,
    Nat.add_right_comm 269 _ 7]
  constructor
  · rintro ⟨⟨⟨hphase, hlevel⟩, heg⟩, hkprev⟩
    exact ⟨hphase, hlevel, heg, hkprev⟩
  · rintro ⟨hphase, hlevel, heg, hkprev⟩
    exact ⟨⟨⟨hphase, hlevel⟩, heg⟩, hkprev⟩

theorem bankBytes_eq_slice {ops : OperatorBank} (h : b.length = 333) :
    bankBytes ops = slice b 269 64 ↔ ∀ k : Fin 8, OperatorAt b k.val (ops.get k) := by
  have hop (k : Fin 8) : OperatorAt b k.val (ops.get k) ↔ operatorBytes (ops.get k) = slice b (269 + 8 * k.val) 8 :=
    (operatorBytes_eq_slice (by omega)).symm
  simp only [hop]
  rw [bankBytes, append_eq_slice (m := 56) (n := 8) (by simp) (by omega),
    append_eq_slice (m := 48) (n := 8) (by simp) (by omega), append_eq_slice (m := 40) (n := 8) (by simp) (by omega),
    append_eq_slice (m := 32) (n := 8) (by simp) (by omega), append_eq_slice (m := 24) (n := 8) (by simp) (by omega),
    append_eq_slice (m := 16) (n := 8) (by simp) (by omega), append_eq_slice (m := 8) (n := 8) (by simp) (by omega)]
  simp [Fin.forall_fin_succ, OperatorBank.get, and_assoc]

theorem toBytes_eq_slice {m : Memory} (h : b.length = 333) :
    m.toBytes = slice b 8 256 ↔ ∀ a < 256, b[8 + a]? = some (m.read a) := by
  constructor
  · intro hbytes a ha
    rw [← slice_getElem? ha, ← hbytes, toBytes_getElem? m ha]
  · intro hread
    refine List.ext_getElem? fun a => ?_
    by_cases ha : a < 256
    · rw [slice_getElem? ha, hread a ha, toBytes_getElem? m ha]
    · rw [List.getElem?_eq_none (by simp; omega), List.getElem?_eq_none (by rw [slice_length (by omega)]; omega)]

end

/-- SAVE_STATE's bytes are the one snapshot of the state. -/
theorem saveBytes_eq_iff {f : Family} {m : MutState} {b : List Byte} : saveBytes f m = b ↔ SnapshotOf f m b := by
  by_cases hlen : b.length = 333
  case neg => exact iff_of_false (fun h => hlen (h ▸ saveBytes_length f m)) (fun h => hlen h.length)
  have hlatch : m.latch.toNat < 256 ^ 1 := m.latch.isLt
  have henv : m.envTimer.toNat < 256 ^ 2 := m.envTimer.isLt
  have hlfo : m.lfo.toNat < 256 ^ 2 := m.lfo.isLt
  rw [← slice_all hlen, saveBytes, append_eq_slice (m := 269) (n := 64) (by simp) (by omega),
    append_eq_slice (m := 267) (n := 2) (by simp) (by omega), append_eq_slice (m := 265) (n := 2) (by simp) (by omega),
    append_eq_slice (m := 264) (n := 1) (by simp) (by omega), append_eq_slice (m := 8) (n := 256) (by simp) (by omega)]
  simp only [Nat.zero_add]
  rw [leBytes_eq_slice hlatch (by omega), leBytes_eq_slice henv (by omega), leBytes_eq_slice hlfo (by omega),
    memRead_one_eq (by omega), toBytes_eq_slice hlen, bankBytes_eq_slice hlen, slice_all hlen]
  constructor
  · rintro ⟨⟨⟨⟨⟨hheader, hregs⟩, hlatch⟩, henv⟩, hlfo⟩, hops⟩
    exact ⟨hlen, hheader.symm, hregs, hlatch, henv, hlfo, hops⟩
  · rintro ⟨-, hheader, hregs, hlatch, henv, hlfo, hops⟩
    exact ⟨⟨⟨⟨⟨hheader.symm, hregs⟩, hlatch⟩, henv⟩, hlfo⟩, hops⟩

/-! ### Acceptance -/

section
variable {b : List Byte}

theorem headerBytes_eq_slice (f : Family) (h : 8 ≤ b.length) :
    headerBytes f = slice b 0 8 ↔ memRead b 0 4 = 0x53534D59 ∧ memRead b 4 1 = f.params.snapVersion ∧
      memRead b 5 1 = f.params.familyId ∧ memRead b 6 2 = 0 := by
  have hversion : f.params.snapVersion < 256 ^ 1 := by cases f; decide
  have hfamily : f.params.familyId < 256 ^ 1 := by cases f; decide
  rw [headerBytes, append_eq_slice (m := 6) (n := 2) (by simp) (by omega),
    append_eq_slice (m := 5) (n := 1) (by simp) (by omega), append_eq_slice (m := 4) (n := 1) (by simp) (by omega),
    leBytes_eq_slice (by decide) (by omega), leBytes_eq_slice hversion (by omega),
    leBytes_eq_slice hfamily (by omega), leBytes_eq_slice (by decide) (by omega)]
  simp only [Nat.zero_add, and_assoc]

theorem operatorFieldsValid_iff {k : Nat} :
    operatorFieldsValid b k = true ↔ memRead b (269 + 8 * k) 4 < 1048576 ∧ memRead b (273 + 8 * k) 2 ≤ 1023 ∧
      memRead b (275 + 8 * k) 1 ≤ 4 ∧ memRead b (276 + 8 * k) 1 ≤ 1 := by
  simp [operatorFieldsValid, and_assoc]

/-- Rules R234 and R235: a snapshot fails no check exactly when it has the length, the header, and every operator's fields
in range. -/
theorem snapshotFailure_eq_none {f : Family} :
    snapshotFailure f b = none ↔
      b.length = 333 ∧ b.take 8 = headerBytes f ∧ ∀ k < 8, operatorFieldsValid b k = true := by
  have hheader (hlen : b.length = 333) := headerBytes_eq_slice (b := b) f (by omega)
  simp only [snapshotFailure, params_snapLen, ite_eq_iff, reduceCtorEq, and_false, false_or, not_not, or_false,
    and_true, List.all_eq_true, List.mem_range]
  constructor
  · rintro ⟨hlen, hmagic, hversion, hfamily, hreserved, hvalid⟩
    exact ⟨hlen, ((hheader hlen).2 ⟨hmagic, hversion, hfamily, hreserved⟩).symm, hvalid⟩
  · rintro ⟨hlen, htake, hvalid⟩
    obtain ⟨hmagic, hversion, hfamily, hreserved⟩ := (hheader hlen).1 htake.symm
    exact ⟨hlen, hmagic, hversion, hfamily, hreserved, hvalid⟩

/-! ### Loading -/

theorem operatorAt_loadOperator {k : Nat} (h : operatorFieldsValid b k = true) : OperatorAt b k (loadOperator b k) := by
  obtain ⟨hphase, hlevel, heg, hkprev⟩ := operatorFieldsValid_iff.1 h
  refine ⟨?_, ?_, (code_ofCode heg).symm, ?_⟩
  · rw [loadOperator, BitVec.toNat_ofNat, Nat.mod_eq_of_lt hphase]
  · rw [loadOperator, BitVec.toNat_ofNat, Nat.mod_eq_of_lt (by omega)]
  · rw [loadOperator]
    interval_cases memRead b (276 + 8 * k) 1 <;> rfl

theorem OperatorAt.loadOperator_eq {k : Nat} {o : Operator} (h : OperatorAt b k o) : loadOperator b k = o := by
  have hkprev : (o.kprev.toNat == 1) = o.kprev := by cases o.kprev <;> rfl
  simp [loadOperator, h.phase, h.level, h.eg, h.kprev, hkprev]

theorem OperatorAt.fieldsValid {k : Nat} {o : Operator} (h : OperatorAt b k o) : operatorFieldsValid b k = true := by
  rw [operatorFieldsValid_iff, h.phase, h.level, h.eg, h.kprev]
  exact ⟨o.phase.isLt, Nat.le_of_lt_succ o.level.isLt, code_le o.eg, Bool.toNat_le o.kprev⟩

section
variable {f : Family} {m : MutState}

/-- An accepted snapshot is one of the state that is loaded from it. -/
theorem snapshotOf_loadBytes (h : snapshotFailure f b = none) : SnapshotOf f (loadBytes b) b := by
  obtain ⟨hlen, hheader, hvalid⟩ := snapshotFailure_eq_none.1 h
  have hword {off : Nat} : memRead b off 2 = (BitVec.ofNat 16 (memRead b off 2)).toNat :=
    (Nat.mod_eq_of_lt (memRead_lt b off 2)).symm
  have hbyte : memRead b 264 1 = (BitVec.ofNat 8 (memRead b 264 1)).toNat := (Nat.mod_eq_of_lt (memRead_lt b 264 1)).symm
  refine ⟨hlen, hheader, fun a ha => ?_, (memRead_one_eq (by omega)).1 hbyte, hword, hword, fun k => ?_⟩
  · have hread : (loadBytes b).regs.read a = ((slice b 8 256)[a]?).getD 0#8 :=
      read_ofBytes (base := 0) (by simp) a
    rw [hread, slice_getElem? ha, List.getElem?_eq_getElem (by omega), Option.getD_some]
  · rw [loadBytes, get_build]
    exact operatorAt_loadOperator (hvalid k k.isLt)

theorem SnapshotOf.accepted (h : SnapshotOf f m b) : snapshotFailure f b = none :=
  snapshotFailure_eq_none.2 ⟨h.length, h.header, fun k hk => (h.ops ⟨k, hk⟩).fieldsValid⟩

/-- What is loaded from a snapshot is the state it is of. -/
theorem SnapshotOf.loadBytes_eq (h : SnapshotOf f m b) (hm : m.regs.wf = true) : loadBytes b = m := by
  have hregs : Memory.ofBytes 0 (slice b 8 256) = m.regs := by
    rw [← (toBytes_eq_slice h.length).2 h.regs, ofBytes_toBytes hm]
  have hlatch : memRead b 264 1 = m.latch.toNat := (memRead_one_eq (by have := h.length; omega)).2 h.latch
  have hops : OperatorBank.build (fun k => loadOperator b k.val) = m.ops :=
    bank_ext fun k => by rw [get_build, (h.ops k).loadOperator_eq]
  rw [slice] at hregs
  simp only [loadBytes, hregs, hlatch, h.envTimer, h.lfo, hops, BitVec.ofNat_toNat, BitVec.setWidth_eq]

end
end

/-! ### The answers of the two operations -/

section
variable {s : State} {c : Chip} (hc : s.chip = some c) {b : List Byte}
include hc

theorem exec_saveState : exec .saveState s = .next (s.withReply (.value (.bytes (saveBytes c.family c.st)))) := by
  simp only [exec, execSaveState, onChip_some _ hc, answer]

theorem exec_loadState_accepted (h : snapshotFailure c.family b = none) :
    exec (.loadState b) s = .next ((s.withChip { c with st := loadBytes b }).withReply .nothing) := by
  simp only [exec, execLoadState, onChip_some _ hc, h, finishWith]

theorem exec_loadState_refused {info : ErrorInfo} (h : snapshotFailure c.family b = some info) :
    exec (.loadState b) s = .next (s.withReply (.error ⟨.invalidState, info⟩)) := by
  simp only [exec, execLoadState, onChip_some _ hc, h, raise]

/-- A LOAD_STATE that answers nothing has accepted its snapshot. -/
theorem exec_loadState_nothing {t : State} (h : exec (.loadState b) s = .next t) (hreply : t.reply = .nothing) :
    snapshotFailure c.family b = none ∧ t = (s.withChip { c with st := loadBytes b }).withReply .nothing := by
  cases hfail : snapshotFailure c.family b with
  | none => exact ⟨rfl, (Host.Outcome.next.inj ((exec_loadState_accepted hc hfail).symm.trans h)).symm⟩
  | some info =>
    obtain rfl := Host.Outcome.next.inj ((exec_loadState_refused hc hfail).symm.trans h)
    cases hreply

end

/-! ### The obligations -/

/-- Settles O52: the answer is a snapshot of the chip's state. -/
theorem saveStateLaysOutEveryField : Obligations.SaveStateLaysOutEveryField := by
  intro s c hc
  obtain ⟨hlen, hheader, hregs, hlatch, henv, hlfo, hops⟩ := saveBytes_eq_iff.1 (Eq.refl (saveBytes c.family c.st))
  exact ⟨_, exec_saveState hc, hlen, hheader.trans (headerBytes_eq _), hregs, hlatch, henv, hlfo,
    fun k => ⟨(hops k).phase, (hops k).level, (hops k).eg, (hops k).kprev⟩⟩

/-- Settles O53: the snapshot is accepted, so it is one of the state that is loaded. -/
theorem loadStateReplacesTheMutableState : Obligations.LoadStateReplacesTheMutableState := by
  intro s c b hc hlen hheader hvalid
  have hfail : snapshotFailure c.family b = none := snapshotFailure_eq_none.2
    ⟨hlen, hheader.trans (headerBytes_eq _).symm, fun k hk => operatorFieldsValid_iff.2 (hvalid k hk)⟩
  obtain ⟨-, -, hregs, hlatch, henv, hlfo, hops⟩ := snapshotOf_loadBytes hfail
  exact ⟨_, exec_loadState_accepted hc hfail, loadBytes_wf b, hregs, hlatch, henv.symm, hlfo.symm,
    fun k => ⟨(hops k).phase.symm, (hops k).level.symm, (hops k).eg.symm, (hops k).kprev.symm⟩⟩

/-- Settles O54: the length is the first check, and a snapshot that fails any of them is not accepted. -/
theorem invalidSnapshotIsRefusedUntouched : Obligations.InvalidSnapshotIsRefusedUntouched := by
  intro s c b hc
  refine ⟨fun hlen => exec_loadState_refused hc ?_, fun hinvalid => ?_⟩
  · rw [snapshotFailure, params_snapLen, if_pos hlen]
  · cases hfail : snapshotFailure c.family b with
    | some info => exact ⟨info, exec_loadState_refused hc hfail⟩
    | none =>
      obtain ⟨-, hheader, hvalid⟩ := snapshotFailure_eq_none.1 hfail
      obtain hbad | ⟨k, hk, hbad⟩ := hinvalid
      · exact absurd (hheader.trans (headerBytes_eq _)) hbad
      · have hfields := operatorFieldsValid_iff.1 (hvalid k hk)
        omega

/-- Settles O55: the saved bytes are a snapshot of the chip's state, which is then what is loaded. -/
theorem loadOfSaveKeepsTheChip : Obligations.LoadOfSaveKeepsTheChip := by
  intro s c hc hwf
  have hsnap : SnapshotOf c.family c.st (saveBytes c.family c.st) := saveBytes_eq_iff.1 rfl
  refine ⟨_, _, _, exec_saveState hc, rfl, exec_loadState_accepted ((withReply_chip s _).trans hc) hsnap.accepted, rfl, ?_⟩
  rw [withReply_chip, withChip_chip, hsnap.loadBytes_eq hwf]

/-- Settles O56: the accepted bytes are a snapshot of the loaded state, and there is only one. -/
theorem saveOfLoadReturnsTheBytes : Obligations.SaveOfLoadReturnsTheBytes := by
  intro s t c b hc ht hreply
  obtain ⟨hfail, rfl⟩ := exec_loadState_nothing hc ht hreply
  refine ⟨_, exec_saveState rfl, ?_⟩
  rw [withReply_reply, saveBytes_eq_iff.2 (snapshotOf_loadBytes hfail)]

/-- Settles O57: both chips hold the loaded state, from which alone GENERATE makes its frames (O30), and it keeps the clock
(O18). -/
theorem snapshotSoundsAlikeUnderAnyClock : Obligations.SnapshotSoundsAlikeUnderAnyClock := by
  intro s s' t t' u u' c c' b n hc hc' ht hreply ht' hreply' hu hu'
  obtain ⟨-, rfl⟩ := exec_loadState_nothing hc ht hreply
  obtain ⟨-, rfl⟩ := exec_loadState_nothing hc' ht' hreply'
  obtain ⟨hframes, d, d', hd, hd', hst⟩ := generateDependsOnTheMutableStateAlone _ _ _ _
    { c with st := loadBytes b } { c' with st := loadBytes b } n rfl rfl rfl hu hu'
  obtain ⟨e, he, hclock, -⟩ := configurationIsFixedAfterConstruct _ _ _ _ rfl (by simp) hu
  obtain ⟨e', he', hclock', -⟩ := configurationIsFixedAfterConstruct _ _ _ _ rfl (by simp) hu'
  obtain rfl := Option.some.inj (hd.symm.trans he)
  obtain rfl := Option.some.inj (hd'.symm.trans he')
  exact ⟨hframes, d, d', hd, hd', hst, hclock, hclock'⟩

end Sys2Proof.Machine
end

section
/-! PROOFS. The errors of each operation on a chip (rules R301 to R303, R306): one answer for each way its checks can go, so
an operation raises exactly the error of the first check that fails. -/
namespace Sys2Proof.Machine

/-! ### The answers of CONSTRUCT and of the property reads -/

theorem exec_construct {s : State} {clock : Arg} {hz : Nat} (h : checkClock .ref clock = some hz) :
    exec (.construct clock) s = .next ((s.withChip (freshChip hz)).withReply .nothing) := by
  simp only [exec, execConstruct, h, finishWith]

theorem exec_construct_badClock {s : State} {clock : Arg} (h : checkClock .ref clock = none) :
    exec (.construct clock) s = .next (s.withReply (.error ⟨.invalidArgument, .clock⟩)) := by
  simp only [exec, execConstruct, h, raise]

section
variable {s : State} {c : Chip} (hc : s.chip = some c)
include hc

theorem exec_readClock : exec .readClock s = .next (s.withReply (.value (.integer c.clock))) := by
  simp only [exec, execReadClock, onChip_some _ hc, answer]

theorem exec_readSampleRate : exec .readSampleRate s = .next (s.withReply (.value (.integer (sampleRate c)))) := by
  simp only [exec, execReadSampleRate, onChip_some _ hc, answer]

theorem exec_readOutputs :
    exec .readOutputs s = .next (s.withReply (.value (.integer c.family.params.outputs))) := by
  simp only [exec, execReadOutputs, onChip_some _ hc, answer]

end

/-! ### Raising -/

/-- The operation, issued to `s`, raises `e`. -/
def Raises (i : Instr) (s : State) (e : Error) : Prop := ∃ t, exec i s = .next t ∧ t.reply = .error e

section
variable {i : Instr} {s t : State} {e : Error}

theorem raises_iff_of_exec (h : exec i s = .next t) : Raises i s e ↔ t.reply = .error e := by
  simp [Raises, h]

/-- An operation whose check has failed raises that check's error and no other. -/
theorem raises_of_refused {e' : Error} (h : exec i s = .next (s.withReply (.error e'))) : Raises i s e ↔ e = e' := by
  simp [raises_iff_of_exec h, eq_comm]

theorem not_raises_of_nothing {c : Chip} (h : exec i s = .next ((s.withChip c).withReply .nothing)) : ¬ Raises i s e := by
  simp [raises_iff_of_exec h]

theorem not_raises_of_value {v : Value} {u : State} (h : exec i s = .next (u.withReply (.value v))) : ¬ Raises i s e := by
  simp [raises_iff_of_exec h]

end

/-! ### Arguments -/

section
variable {s : State} {e : Error} {a b : Arg}

theorem raises_construct : Raises (.construct a) s e ↔ e = ⟨.invalidArgument, .clock⟩ ∧ checkClock .ref a = none := by
  cases ha : checkClock .ref a with
  | none => simp [raises_of_refused (exec_construct_badClock ha)]
  | some hz => simp [not_raises_of_nothing (exec_construct ha)]

section
variable {c : Chip} (hc : s.chip = some c)
include hc

theorem raises_write :
    Raises (.write a b) s e ↔
      (e = ⟨.invalidArgument, .address⟩ ∧ checkByte a = none) ∨
      (e = ⟨.invalidArgument, .value⟩ ∧ checkByte a ≠ none ∧ checkByte b = none) := by
  cases ha : checkByte a with
  | none => simp [raises_of_refused (exec_write_badAddress hc ha)]
  | some x =>
    cases hb : checkByte b with
    | none => simp [raises_of_refused (exec_write_badValue hc ha hb)]
    | some y => simp [not_raises_of_nothing (exec_write hc ha hb)]

theorem raises_writeAddress :
    Raises (.writeAddress a) s e ↔ e = ⟨.invalidArgument, .address⟩ ∧ checkByte a = none := by
  cases ha : checkByte a with
  | none => simp [raises_of_refused (exec_writeAddress_badAddress hc ha)]
  | some x => simp [not_raises_of_nothing (exec_writeAddress hc ha)]

theorem raises_writeData : Raises (.writeData b) s e ↔ e = ⟨.invalidArgument, .value⟩ ∧ checkByte b = none := by
  cases hb : checkByte b with
  | none => simp [raises_of_refused (exec_writeData_badValue hc hb)]
  | some y => simp [not_raises_of_nothing (exec_writeData hc hb)]

theorem raises_generate : Raises (.generate a) s e ↔ e = ⟨.invalidArgument, .count⟩ ∧ checkCount a = none := by
  cases ha : checkCount a with
  | none => simp [raises_of_refused (exec_generate_none hc ha)]
  | some n => simp [not_raises_of_value (exec_generate_some hc ha)]

theorem raises_loadState {b : List Byte} :
    Raises (.loadState b) s e ↔ e.kind = .invalidState ∧ some e.info = snapshotFailure c.family b := by
  obtain ⟨kind, info⟩ := e
  cases hb : snapshotFailure c.family b with
  | none => simp [not_raises_of_nothing (exec_loadState_accepted hc hb)]
  | some info' => simp [raises_of_refused (exec_loadState_refused hc hb)]

end

theorem checkByte_ne_none : checkByte a ≠ none ↔ ∃ v, a = .int v ∧ 0 ≤ v ∧ v ≤ 255 := by
  rw [Ne, checkByte_none]
  push Not
  rfl

end

/-! ### Snapshots -/

section
variable {b : List Byte} (h : b.length = 333)
include h

theorem magic_iff : memRead b 0 4 = 0x53534D59 ↔ b.take 4 = [0x59#8, 0x4D#8, 0x53#8, 0x53#8] :=
  (leBytes_eq_slice (by decide) (by omega)).symm.trans eq_comm

theorem reserved_iff : memRead b 6 2 = 0 ↔ b[6]? = some 0x00#8 ∧ b[7]? = some 0x00#8 := by
  have hbytes : leBytes 2 0 = leBytes 1 0 ++ leBytes 1 0 := rfl
  have hzero (off : Nat) (hoff : off < 333) : memRead b off 1 = 0 ↔ b[off]? = some 0x00#8 :=
    memRead_one_eq (v := 0x00#8) (by omega)
  rw [← leBytes_eq_slice (by decide) (by omega), hbytes, append_eq_slice (m := 1) (n := 1) rfl (by omega),
    leBytes_eq_slice (by decide) (by omega), leBytes_eq_slice (by decide) (by omega)]
  exact and_congr (hzero 6 (by omega)) (hzero 7 (by omega))

end

/-- The checks of rules R234 and R235 in the order of rule R306, read off the bytes. -/
theorem snapshotFailure_eq (f : Family) (b : List Byte) :
    snapshotFailure f b =
      if b.length ≠ 333 then some .length
      else if b.take 4 ≠ [0x59#8, 0x4D#8, 0x53#8, 0x53#8] then some .format
      else if b[4]? ≠ some 0x01#8 then some .version
      else if b[5]? ≠ some 0x01#8 then some .family
      else if b[6]? ≠ some 0x00#8 ∨ b[7]? ≠ some 0x00#8 then some .format
      else if (List.range 8).all (operatorFieldsValid b) then none
      else some .field := by
  by_cases hlen : b.length = 333
  case neg => rw [snapshotFailure, params_snapLen, if_pos hlen, if_pos hlen]
  have hbyte (off : Nat) (hoff : off < 333) : memRead b off 1 = 1 ↔ b[off]? = some 0x01#8 :=
    memRead_one_eq (v := 0x01#8) (by omega)
  have hversion : memRead b 4 1 = f.params.snapVersion ↔ b[4]? = some 0x01#8 := by cases f; exact hbyte 4 (by omega)
  have hfamily : memRead b 5 1 = f.params.familyId ↔ b[5]? = some 0x01#8 := by cases f; exact hbyte 5 (by omega)
  simp only [snapshotFailure, params_snapLen, ne_eq, magic_iff hlen, hversion, hfamily, reserved_iff hlen, not_and_or]

/-! ### The obligation -/

/-- Settles O12: each operation raises by its failing check, and no property read, SAVE_STATE or RESET has one. -/
theorem operationErrorsAreTheListedCauses : Obligations.OperationErrorsAreTheListedCauses := by
  intro i s c e hc
  change Raises i s e ↔ _
  cases i with
  | construct a => rw [raises_construct, checkClock_none]
  | write a b => rw [raises_write hc, checkByte_ne_none, checkByte_none, checkByte_none]
  | writeAddress a => rw [raises_writeAddress hc, checkByte_none]
  | writeData b => rw [raises_writeData hc, checkByte_none]
  | generate a => rw [raises_generate hc, checkCount_none]
  | saveState => exact iff_false_intro (not_raises_of_value (exec_saveState hc))
  | loadState b =>
    rw [raises_loadState hc, snapshotFailure_eq]
    rfl
  | reset => exact iff_false_intro (not_raises_of_nothing (exec_reset hc))
  | readClock => exact iff_false_intro (not_raises_of_value (exec_readClock hc))
  | readSampleRate => exact iff_false_intro (not_raises_of_value (exec_readSampleRate hc))
  | readOutputs => exact iff_false_intro (not_raises_of_value (exec_readOutputs hc))

end Sys2Proof.Machine
end

section
/-! PROOFS. How a run ends (rules R269, R270), and the control operations: what needs a chip, what CONSTRUCT and RESET leave,
and what the property reads answer (rules R260 to R267, R302). -/
namespace Sys2Proof.Machine

/-! ### A step that ends the run with an error -/

/-- No effect of an operation answers an error: an operation that does has raised it, and changed only its reply (rule R304). -/
theorem exec_raised {i : Instr} {s t : State} {e : Error} (h : exec i s = .next t) (he : t.reply = .error e) :
    t = s.withReply (.error e) := by
  cases effect_of_exec h with
  | raised => rw [← he, withReply_reply]
  | construct | write | writeAddress | writeData | generate | saveState | loadState | reset | readClock | readSampleRate
    | readOutputs => cases he

/-- Of the three ways to pass on from a command only the one for an error fails a running run. -/
theorem afterCommand_failed {n o : Nat} {rest : List Byte} {t : State} {e : Error} (hrun : t.status = .running)
    (h : (afterCommand n rest t).status = .failed e o) : t.reply = .error e ∧ afterCommand n rest t = failRun e t := by
  unfold afterCommand at h ⊢
  split at h
  · next e' he' => cases h; exact ⟨he', rfl⟩
  · cases hrun.symm.trans h
  · cases hrun.symm.trans h

/-- A step that fails the run fails it from the state it found, but for the reply. -/
theorem step_failed {s t : State} {e : Error} {o : Nat} (h : step s = .next t) (hfail : t.status = .failed e o) :
    s.status = .running ∧ ∃ r, t = failRun e (s.withReply r) := by
  obtain ⟨hrun, ⟨-, rfl⟩ | ⟨-, rfl⟩ | ⟨-, rfl⟩ | ⟨i, n, rest, u, -, hu, rfl⟩⟩ := step_next h
  · cases hfail
  · cases hfail; exact ⟨hrun, s.reply, rfl⟩
  · cases hfail; exact ⟨hrun, s.reply, rfl⟩
  · obtain ⟨-, -, -, hstatus⟩ := exec_keeps_runner hu
    obtain ⟨hreply, hafter⟩ := afterCommand_failed (hstatus.trans hrun) hfail
    exact ⟨hrun, .error e, by rw [hafter, exec_raised hu hreply]⟩

/-- Settles O9: failing the run sets its status only, with the offset the step found. -/
theorem errorEndsTheRunAndChangesNothing : Obligations.ErrorEndsTheRunAndChangesNothing := by
  intro s t e o h hfail
  obtain ⟨hrun, r, rfl⟩ := step_failed h hfail
  cases hfail
  exact ⟨hrun, rfl, rfl, rfl, rfl, rfl⟩

/-! ### The end of the stream -/

theorem step_done {s : State} (hrun : s.status = .running) (hd : decodeOne s.stream = .done) :
    step s = .next { s with status := .finished } := by
  simp only [step, runStep, hrun, runCommand, hd]

theorem step_returned {s : State} (h : s.status ≠ .running) : step s = .fault .runReturned := by
  cases hstatus : s.status with
  | running => exact absurd hstatus h
  | finished | failed => simp only [step, runStep, hstatus]

/-- Settles O8: nothing but the empty stream decodes to no command. -/
theorem runReturnsAtTheEndAndThenStops : Obligations.RunReturnsAtTheEndAndThenStops :=
  ⟨fun _ hrun hstream => step_done hrun (decodeOne_eq_done.2 hstream), fun _ => step_returned⟩

/-! ### Operations with no chip -/

/-- Every operation but CONSTRUCT is an operation on a chip. -/
theorem exec_eq_onChip {i : Instr} (hi : ∀ a, i ≠ .construct a) (s : State) : ∃ f, exec i s = onChip s f := by
  cases i with
  | construct a => exact absurd rfl (hi a)
  | write | writeAddress | writeData | generate | saveState | loadState | reset | readClock | readSampleRate
    | readOutputs => exact ⟨_, rfl⟩

/-- Settles O13: an operation on a chip looks for the chip before it makes a check of its own. -/
theorem operationBeforeConstructIsInvalidState : Obligations.OperationBeforeConstructIsInvalidState := by
  intro i s hc hi
  obtain ⟨f, hf⟩ := exec_eq_onChip hi s
  exact hf.trans (onChip_none f hc)

/-! ### CONSTRUCT and RESET -/

/-- Rule R45's values of the mutable fields. -/
theorem mutState_reset_fields :
    (∀ a, MutState.reset.regs.read a = 0x00#8) ∧ MutState.reset.latch = 0x00#8 ∧
    (∀ k, MutState.reset.ops.get k = { phase := 0#20, level := 0#10, eg := .off, kprev := false }) ∧
    MutState.reset.envTimer = 0#16 ∧ MutState.reset.lfo = 0#16 :=
  ⟨read_nil, rfl, reset_get, rfl, rfl⟩

/-- Settles O14: the clocks that are accepted are the integers from 1 on. -/
theorem constructMakesAChipInTheResetState : Obligations.ConstructMakesAChipInTheResetState :=
  ⟨fun _ _ hv => ⟨MutState.reset, exec_construct (checkClock_int hv), mutState_reset_fields⟩,
    fun _ _ ha => exec_construct_badClock (checkClock_none.2 ha)⟩

/-- Settles O15: RESET replaces the mutable state alone. -/
theorem resetClearsTheMutableState : Obligations.ResetClearsTheMutableState :=
  fun _ _ hc => ⟨MutState.reset, exec_reset hc, mutState_reset_fields⟩

/-- Settles O16: what RESET leaves does not depend on the mutable state it finds. -/
theorem resetTwiceIsResetOnce : Obligations.ResetTwiceIsResetOnce := by
  intro s t c hc ht
  obtain rfl := Host.Outcome.next.inj ((exec_reset hc).symm.trans ht)
  exact exec_reset (c := { c with st := MutState.reset }) rfl

/-! ### The property reads -/

/-- The sample rate is the exact rate `clock / 64` rounded up (rule R263). -/
theorem sampleRate_le_iff {c : Chip} {p : Nat} : sampleRate c ≤ p ↔ c.clock ≤ p * 64 := by
  have hdiv : c.family.params.div = 64 := by cases c.family; rfl
  rw [sampleRate, hdiv, ceilDiv]
  omega

/-- Settles O17: the rounded-up rate is the least `q` with `clock ≤ q * 64`. -/
theorem propertyReadsAnswer : Obligations.PropertyReadsAnswer := by
  intro s c hc
  refine ⟨exec_readClock hc, ⟨_, exec_readSampleRate hc, ?_, fun _ => sampleRate_le_iff.2⟩, ?_⟩
  · exact sampleRate_le_iff.1 le_rfl
  · rw [exec_readOutputs hc, outputs_eq]
    rfl

end Sys2Proof.Machine
end

section
/-! PROOFS. What an operation leaves where it raises an error (rule R304). -/
namespace Sys2Proof.Machine

/-- Settles O10: of all the effects of an operation, only raising answers an error, and raising writes the reply alone. -/
theorem raisingOperationChangesNothing : Obligations.RaisingOperationChangesNothing :=
  fun _ _ _ _ h he => exec_raised h he

end Sys2Proof.Machine
end

section
/-! PROOFS. Writes to two different addresses, in either order (rule R335). -/
namespace Sys2Proof.Machine

/-- Writes to different addresses leave the same register file in either order. -/
theorem write_write_comm {m : Memory} (hm : m.wf = true) {a b : Byte} (hne : a ≠ b) (v w : Byte) :
    (m.write a v).write b w = (m.write b w).write a v := by
  have hab : a.toNat ≠ b.toNat := BitVec.toNat_ne.1 hne
  refine memory_ext (write_wf _ _ (write_wf _ _ hm)) (write_wf _ _ (write_wf _ _ hm)) fun r => ?_
  rw [read_write (write_wf _ _ hm), read_write hm, read_write (write_wf _ _ hm), read_write hm]
  by_cases hr : r = a.toNat
  · rw [if_neg (hr.trans_ne hab), if_pos hr, if_pos hr]
  · rw [if_neg hr, if_neg hr]

/-- Settles O24: the two register files are equal by `write_write_comm`, and each order latches the address it writes last. -/
theorem writesToDifferentAddressesCommute : Obligations.WritesToDifferentAddressesCommute := by
  intro s c a v b w hc hwf hne ha0 ha1 hv0 hv1 hb0 hb1 hw0 hw1
  obtain ⟨a, ha, rfl⟩ := exists_checkByte ha0 ha1
  obtain ⟨v, hv, -⟩ := exists_checkByte hv0 hv1
  obtain ⟨b, hb, rfl⟩ := exists_checkByte hb0 hb1
  obtain ⟨w, hw, -⟩ := exists_checkByte hw0 hw1
  have hab : a ≠ b := fun h => hne (by rw [h])
  refine ⟨_, _, _, _, _, _, exec_write hc ha hv, exec_write (afterWrite_chip ..) hb hw, exec_write hc hb hw,
    exec_write (afterWrite_chip ..) ha hv, rfl, rfl, ?_⟩
  simp only [storeAtLatch, latchAddress, write_write_comm hwf hab]

end Sys2Proof.Machine
end

section
/-! PROOFS. The reset state is legal (rules R21, R23, R45). -/
namespace Sys2Proof.Machine

/-- A fresh chip is legal for every valid clock: no register is listed, which is canonical. -/
theorem freshChip_legal {clock : Nat} (h : 1 ≤ clock) : (freshChip clock).legal = true :=
  Chip.legal_iff.2 ⟨h, rfl⟩

/-- Settles O60: the chip is a fresh one of clock 64 (log entry 1), and nothing has been returned yet. -/
theorem resetStateIsLegal : Obligations.ResetStateIsLegal := by
  have hchip : (freshChip 64).legal = true := freshChip_legal (by decide)
  exact State.legal_iff.2 ⟨hchip, rfl, rfl⟩

end Sys2Proof.Machine
end
